-- ==== Sys2Proof/Word.lean ====
section
/-! DEFINITION. The word types of the machine (`00_scope.md` R4, R5). All values are unsigned. -/

namespace Sys2Proof

/-- XLEN = 8: a general register, a memory cell, a timer (R4). -/
abbrev Byte := BitVec 8

/-- ILEN = ADDR_REG_W = 16: an instruction word, I, PC, a stack entry (R4). -/
abbrev Word := BitVec 16

/-- A 4-bit operand: a register index x or y, a sprite height n (R62). -/
abbrev Nibble := BitVec 4

/-- The 12-bit operand nnn (R62). -/
abbrev Addr12 := BitVec 12

end Sys2Proof
end

