-- ==== Sys2Proof/Config.lean ====
section
/-! DEFINITION. What is fixed for one machine: the parameters of `00_scope.md` R4, and the free values
the spec leaves open. A free value is an opaque constant: a claim is true whatever it is. -/

namespace Sys2Proof.Config

/-- PROG_BASE, the load address and the reset value of PC (R4). -/
abbrev progBase : Nat := 0x200

/-- The highest address of memory; MEM_SIZE is 4096 (R4, R41). -/
abbrev maxAddr : Nat := 0xFFF

/-- MAX_ROM, the largest loadable program in bytes (R4, R263). -/
abbrev maxRom : Nat := 0xE00

/-- FB_W and FB_H (R4). -/
abbrev fbWidth : Nat := 64
@[inherit_doc fbWidth] abbrev fbHeight : Nat := 32

/-- STACK_DEPTH (R4). -/
abbrev stackDepth : Nat := 16

/-- SP_EMPTY (R4, R15). -/
abbrev spEmpty : Byte := 0xFF

/-- FONT_BASE, OPEN with 0 ≤ FONT_BASE ≤ 0x1B0 (R4, D15): a free value inside the bound the spec sets.
DESIGN CHOICE, log 4 (safe). -/
opaque fontBase : Fin 0x1B1

/-- FONT_STRIDE, bytes per glyph (R4, G2). PRESUMED by the spec itself, log 6 (unsafe). -/
abbrev fontStride : Nat := 5

/-- FONT_ROM, OPEN (R4, R262, D15): 80 free bytes, sixteen glyphs of five. DESIGN CHOICE, log 5 (safe). -/
opaque fontRom : Vector Byte 80

/-- The table of `70_reset_and_hazards.md` R262, the default the spec offers for FONT_ROM (G1), glyph d at offset
5 d. The machine does not fix it: a claim about drawn glyphs takes `fontRom = defaultFontRom` as a premise. -/
def defaultFontBytes : List Byte :=
  [0xF0, 0x90, 0x90, 0x90, 0xF0,  0x20, 0x60, 0x20, 0x20, 0x70,
   0xF0, 0x10, 0xF0, 0x80, 0xF0,  0xF0, 0x10, 0xF0, 0x10, 0xF0] ++
  [0x90, 0x90, 0xF0, 0x10, 0x10,  0xF0, 0x80, 0xF0, 0x10, 0xF0,
   0xF0, 0x80, 0xF0, 0x90, 0xF0,  0xF0, 0x10, 0x20, 0x40, 0x40] ++
  [0xF0, 0x90, 0xF0, 0x90, 0xF0,  0xF0, 0x90, 0xF0, 0x10, 0xF0,
   0xF0, 0x90, 0xF0, 0x90, 0x90,  0xE0, 0x90, 0xE0, 0x90, 0xE0] ++
  [0xF0, 0x80, 0x80, 0x80, 0xF0,  0xE0, 0x90, 0x90, 0x90, 0xE0,
   0xF0, 0x80, 0xF0, 0x80, 0xF0,  0xF0, 0x80, 0xF0, 0x80, 0x80]

@[inherit_doc defaultFontBytes] def defaultFontRom : Vector Byte 80 := ⟨defaultFontBytes.toArray, rfl⟩

/-- The number of host time units in 1/60 s, less one: OPEN (R4, D18). DESIGN CHOICE, log 7 (safe). -/
opaque timerPeriodPred : Nat

/-- TIMER_PERIOD, a positive integer (R4). -/
def timerPeriod : Nat := timerPeriodPred + 1

/-- The random byte of the n-th draw (R133, D20, U1): a free value per execution of `Cxkk`.
DESIGN CHOICE, log 2 (safe). -/
opaque rnd : Nat → Byte

/-- The key the host's `key_select` prefers for a set of pressed keys (R195, D10): a free value; used
only where it names a pressed key. DESIGN CHOICE, log 3 (safe). -/
opaque keyChoice : Word → Nibble

/-- What the stack-top accessor returns while the stack is empty (R31, U9), one free value per reading.
DESIGN CHOICE, log 14 (safe). -/
opaque emptyStackTop : Nat → Word

end Sys2Proof.Config
end

