-- ==== Sys2Proof/Decode.lean ====
section
/-! DEFINITION. The decoder (`30_encoding.md` R60 to R68, `40_dispatch.md` R85), total on any bytes and
rejecting by name, and after it the encoder, written from the same table. -/

namespace Sys2Proof

/-- Why a decoder refuses. -/
inductive DecodeError where
  /-- the word matches no row of R66 (R68); the machine raises NotImplemented (R222) -/
  | notImplemented (w : Word)
  /-- fewer than the two bytes every instruction has (R60); the fetch never gives so few -/
  | truncated
  deriving DecidableEq, Repr

/-- `w[15:12]` (R62). -/
def fieldFamily (w : Word) : Nibble := w.extractLsb' 12 4
/-- `w[11:8]` (R62). -/
def fieldX (w : Word) : Nibble := w.extractLsb' 8 4
/-- `w[7:4]` (R62). -/
def fieldY (w : Word) : Nibble := w.extractLsb' 4 4
/-- `w[3:0]` (R62). -/
def fieldN (w : Word) : Nibble := w.extractLsb' 0 4
/-- `w[7:0]` (R62). -/
def fieldKk (w : Word) : Byte := w.extractLsb' 0 8
/-- `w[11:0]` (R62). -/
def fieldNnn (w : Word) : Addr12 := w.extractLsb' 0 12

/-- Family 0: only the two whole words 0x00E0 and 0x00EE (R64 step 3). -/
def decodeFamily0 (w : Word) : Except DecodeError Instr :=
  if w = 0x00E0 then .ok .cls
  else if w = 0x00EE then .ok .ret
  else .error (.notImplemented w)

/-- Families 5 and 9: only with the low nibble 0 (R64 step 4, D16). -/
def decodeLowNibbleZero (w : Word) (i : Instr) : Except DecodeError Instr :=
  if fieldN w = 0 then .ok i else .error (.notImplemented w)

/-- Family 8: the sub-operation is the low nibble (R64 step 5). -/
def decodeFamily8 (w : Word) : Except DecodeError Instr :=
  match (fieldN w).toNat with
  | 0x0 => .ok (.ldReg (fieldX w) (fieldY w))
  | 0x1 => .ok (.orReg (fieldX w) (fieldY w))
  | 0x2 => .ok (.andReg (fieldX w) (fieldY w))
  | 0x3 => .ok (.xorReg (fieldX w) (fieldY w))
  | 0x4 => .ok (.addReg (fieldX w) (fieldY w))
  | 0x5 => .ok (.subReg (fieldX w) (fieldY w))
  | 0x6 => .ok (.shr (fieldX w) (fieldY w))
  | 0x7 => .ok (.subn (fieldX w) (fieldY w))
  | 0xE => .ok (.shl (fieldX w) (fieldY w))
  | _ => .error (.notImplemented w)

/-- Family E: the sub-operation is the low byte (R64 step 6). -/
def decodeFamilyE (w : Word) : Except DecodeError Instr :=
  if fieldKk w = 0x9E then .ok (.skp (fieldX w))
  else if fieldKk w = 0xA1 then .ok (.sknp (fieldX w))
  else .error (.notImplemented w)

/-- Family F: the sub-operation is the low byte (R64 step 7). -/
def decodeFamilyF (w : Word) : Except DecodeError Instr :=
  if fieldKk w = 0x07 then .ok (.ldVxDt (fieldX w))
  else if fieldKk w = 0x0A then .ok (.ldVxK (fieldX w))
  else if fieldKk w = 0x15 then .ok (.ldDtVx (fieldX w))
  else if fieldKk w = 0x18 then .ok (.ldStVx (fieldX w))
  else if fieldKk w = 0x1E then .ok (.addI (fieldX w))
  else if fieldKk w = 0x29 then .ok (.ldF (fieldX w))
  else if fieldKk w = 0x33 then .ok (.ldB (fieldX w))
  else if fieldKk w = 0x55 then .ok (.storeRegs (fieldX w))
  else if fieldKk w = 0x65 then .ok (.loadRegs (fieldX w))
  else .error (.notImplemented w)

/-- `Decode(w)` (R85), the procedure of R64: a function of the 16-bit word alone. -/
def decode (w : Word) : Except DecodeError Instr :=
  match (fieldFamily w).toNat with
  | 0x0 => decodeFamily0 w
  | 0x1 => .ok (.jp (fieldNnn w))
  | 0x2 => .ok (.call (fieldNnn w))
  | 0x3 => .ok (.seImm (fieldX w) (fieldKk w))
  | 0x4 => .ok (.sneImm (fieldX w) (fieldKk w))
  | 0x5 => decodeLowNibbleZero w (.seReg (fieldX w) (fieldY w))
  | 0x6 => .ok (.ldImm (fieldX w) (fieldKk w))
  | 0x7 => .ok (.addImm (fieldX w) (fieldKk w))
  | 0x8 => decodeFamily8 w
  | 0x9 => decodeLowNibbleZero w (.sneReg (fieldX w) (fieldY w))
  | 0xA => .ok (.ldI (fieldNnn w))
  | 0xB => .ok (.jpV0 (fieldNnn w))
  | 0xC => .ok (.rnd (fieldX w) (fieldKk w))
  | 0xD => .ok (.drw (fieldX w) (fieldY w) (fieldN w))
  | 0xE => decodeFamilyE w
  | 0xF => decodeFamilyF w
  | _ => .error (.notImplemented w) -- no 4-bit value is left

/-- The word of two consecutive bytes, the byte at the lower address first: `hi ++ lo` (R43). -/
def wordOfBytes (hi lo : Byte) : Word := hi ++ lo

/-- The byte of a word that stands at the lower address (R43, R62). -/
def highByte (w : Word) : Byte := w.extractLsb' 8 8
/-- The byte of a word that stands at the higher address (R43, R62). -/
def lowByte (w : Word) : Byte := w.extractLsb' 0 8

/-- Decode an instruction from a byte sequence: the instruction and the bytes after it (R60). -/
def decodeBytes : List Byte → Except DecodeError (Instr × List Byte)
  | hi :: lo :: rest =>
    match decode (wordOfBytes hi lo) with
    | .ok i => .ok (i, rest)
    | .error e => .error e
  | _ => .error .truncated

/-- Format NNN (R61). -/
def packNnn (family : Nibble) (nnn : Addr12) : Word := family ++ nnn
/-- Format XKK, and XSS with the sub-operation as kk (R61). -/
def packXkk (family x : Nibble) (kk : Byte) : Word := family ++ x ++ kk
/-- Format XYN (R61). -/
def packXyn (family x y n : Nibble) : Word := family ++ x ++ y ++ n

/-- The word of an instruction, row by row from R66. -/
def encode : Instr → Word
  | .cls => 0x00E0
  | .ret => 0x00EE
  | .jp nnn => packNnn 0x1 nnn
  | .call nnn => packNnn 0x2 nnn
  | .seImm x kk => packXkk 0x3 x kk
  | .sneImm x kk => packXkk 0x4 x kk
  | .seReg x y => packXyn 0x5 x y 0x0
  | .ldImm x kk => packXkk 0x6 x kk
  | .addImm x kk => packXkk 0x7 x kk
  | .ldReg x y => packXyn 0x8 x y 0x0
  | .orReg x y => packXyn 0x8 x y 0x1
  | .andReg x y => packXyn 0x8 x y 0x2
  | .xorReg x y => packXyn 0x8 x y 0x3
  | .addReg x y => packXyn 0x8 x y 0x4
  | .subReg x y => packXyn 0x8 x y 0x5
  | .shr x y => packXyn 0x8 x y 0x6
  | .subn x y => packXyn 0x8 x y 0x7
  | .shl x y => packXyn 0x8 x y 0xE
  | .sneReg x y => packXyn 0x9 x y 0x0
  | .ldI nnn => packNnn 0xA nnn
  | .jpV0 nnn => packNnn 0xB nnn
  | .rnd x kk => packXkk 0xC x kk
  | .drw x y n => packXyn 0xD x y n
  | .skp x => packXkk 0xE x 0x9E
  | .sknp x => packXkk 0xE x 0xA1
  | .ldVxDt x => packXkk 0xF x 0x07
  | .ldVxK x => packXkk 0xF x 0x0A
  | .ldDtVx x => packXkk 0xF x 0x15
  | .ldStVx x => packXkk 0xF x 0x18
  | .addI x => packXkk 0xF x 0x1E
  | .ldF x => packXkk 0xF x 0x29
  | .ldB x => packXkk 0xF x 0x33
  | .storeRegs x => packXkk 0xF x 0x55
  | .loadRegs x => packXkk 0xF x 0x65

/-- The bytes of an instruction as memory holds them, high byte at the lower address (R43, R60). -/
def encodeBytes (i : Instr) : List Byte := [highByte (encode i), lowByte (encode i)]

/-- The 16-bit instruction word of a table word given as a number: the bits above `nbits` are zero. -/
def tableWord (nbits w : Nat) : Word := BitVec.ofNat 16 (w % 2 ^ nbits)

/-- What the decoder reads from the opcode-table word `w`: its two bytes laid out big-endian (R43). -/
def decodeTableWord (nbits w : Nat) : Option Instr :=
  match decodeBytes [highByte (tableWord nbits w), lowByte (tableWord nbits w)] with
  | .ok (i, _) => some i
  | .error _ => none

end Sys2Proof
end

