-- ==== Sys2Proof/Machine/State.lean ====
section
/-! DEFINITION. The machine's state (`10_state.md` R30 is its complete list), the reasons a step can
stop, and the state after reset. Plain data throughout. -/

namespace Sys2Proof.Machine

/-- The fatal status the FAULT register holds (`10_state.md` R21); a closed set of names, its 3-bit
codes in `FaultCode.code`. DESIGN CHOICE, log 10 (safe). -/
inductive FaultCode where
  | none
  | stackOverflow
  | notImplemented
  | memoryBounds
  | stackUnderflow
  deriving DecidableEq, Repr

/-- Everything the host and the timer agent may do (`00_scope.md` R6, `70_reset_and_hazards.md` R268). -/
inductive HostEvent where
  /-- `Tick`: one step of the instruction agent (R80) -/
  | tick
  /-- `TimerPulse`: one 1/60 s period has elapsed (R208) -/
  | timerPulse
  /-- `AdvanceTimers(elapsed)`, in host time units (R209) -/
  | advanceTimers (elapsed : Nat)
  /-- `SetKeys(k)` (R18) -/
  | setKeys (k : Word)
  /-- `Reset` (R260) -/
  | reset
  /-- `LoadROM(bytes, len)` with len the length of the list (R263, log 12) -/
  | loadRom (bytes : List Byte)
  /-- `LoadROMWords(words, count)` with count the length of the list (R263, log 12) -/
  | loadRomWords (words : List Word)
  deriving DecidableEq, Repr

/-- MEM as the cells that differ from their reset content, addresses strictly rising; `Memory.read`,
`Memory.write` and `Memory.wf` are in Ops. -/
abbrev Memory := List Host.Cell

/-- FB (`10_state.md` R19): row y is element y, column x of a row is bit x of the element.
DESIGN CHOICE, log 27 (safe): the spec fixes no linear layout. -/
abbrev Framebuffer := Vector (BitVec 64) 32

/-- All state of the machine, one field per element of R30, then the model's own fields. -/
structure State where
  /-- `V[0]`..`V[15]` (R10) -/
  v : Vector Byte 16
  /-- I (R12) -/
  i : Word
  /-- PC (R13) -/
  pc : Word
  /-- `STACK[0]`..`STACK[15]` (R14) -/
  stack : Vector Word 16
  /-- SP (R15) -/
  sp : Byte
  /-- DT (R16) -/
  dt : Byte
  /-- ST (R17) -/
  st : Byte
  /-- KEYS, bit k is key k (R18) -/
  keys : Word
  /-- FB (R19) -/
  fb : Framebuffer
  /-- WAIT (R20) -/
  wait : Bool
  /-- WREG (R20) -/
  wreg : Nibble
  /-- FAULT (R21) -/
  fault : FaultCode
  /-- IR (R23) -/
  ir : Word
  /-- TACC (R24) -/
  tacc : Nat
  /-- MEM (R25) -/
  mem : Memory
  /-- the model's own: the host's events still to come, in order (log 1) -/
  host : List HostEvent
  /-- the model's own: how many random bytes have been drawn (log 2) -/
  draws : Nat
  /-- the model's own: no tick has come since the last `Reset`, so a load is defined (R263, log 12) -/
  loadOpen : Bool
  deriving DecidableEq, Repr

/-- Why a step stops with a fault. -/
inductive Fault where
  /-- raised by `RET` and `CALL` when SP holds a value `10_state.md` R15 says no rule produces, so that
  `STACK[SP]` names no entry; the spec gives no effect. Safe; unreachable from reset (log 11). -/
  | stackPointerOutOfRange
  deriving DecidableEq, Repr

/-- Why a step is refused. -/
inductive Refusal where
  /-- an instruction without a meaning yet, by the table's mnemonic; raised by `exec`'s arms only. Safe. -/
  | notModelled (mnemonic : String)
  /-- raised by `LoadROM` after the first tick: `70_reset_and_hazards.md` R263 (D19, U13) says a model
  refuses it. Safe (log 12). -/
  | loadAfterFirstTick
  deriving DecidableEq, Repr

/-- The state right after `Reset` (R30, R260, R261): memory lists nothing, every cell at its reset content.
The zero values rest on the spec's decision D17 (log 8, unsafe); `host`, `draws`, `loadOpen` are the
model's own (DESIGN CHOICE, logs 1, 2, 12). -/
def State.reset : State where
  v := Vector.replicate 16 0
  i := 0
  pc := 0x200
  stack := Vector.replicate 16 0
  sp := Config.spEmpty
  dt := 0
  st := 0
  keys := 0
  fb := Vector.replicate 32 0
  wait := false
  wreg := 0
  fault := .none
  ir := 0
  tacc := 0
  mem := []
  host := []
  draws := 0
  loadOpen := true

end Sys2Proof.Machine
end

