-- ==== Sys2Proof/Machine/Ops.lean ====
section
/-! DEFINITION. The named operations over registers, memory, framebuffer and PC that the meanings are
written with, and taking a fatal status. -/

namespace Sys2Proof.Machine

/-- What an instruction or an event answers. -/
abbrev Result := Host.Outcome State Fault Refusal

/-- The numeric codes of FAULT (`10_state.md` R21, `60_exceptions.md` R220). -/
def FaultCode.code : FaultCode → BitVec 3
  | .none => 0
  | .stackOverflow => 1
  | .notImplemented => 2
  | .memoryBounds => 3
  | .stackUnderflow => 4

/-! ### General registers -/

/-- The index of VF (R10, R11). -/
def regF : Nibble := 0xF

/-- Read `V[r]` (R10). -/
def State.reg (s : State) (r : Nibble) : Byte := s.v[r.toNat]'r.isLt

/-- `V[r] <- b` (R10). -/
def State.setReg (s : State) (r : Nibble) (b : Byte) : State :=
  { s with v := s.v.set r.toNat b r.isLt }

/-- `V[r], V[r+1], ... <- bytes`, ascending (R155). -/
def writeRegsFrom (r : Nat) : List Byte → Vector Byte 16 → Vector Byte 16
  | [], v => v
  | b :: bs, v => writeRegsFrom (r + 1) bs (v.setIfInBounds r b)

/-! ### PC (`40_dispatch.md` R86) -/

/-- `pc <- target`. -/
def State.setPc (s : State) (target : Word) : State := { s with pc := target }

/-- "advance PC by 2 (normal)"; PC arithmetic is modulo 2^16 (R13). -/
def State.advance (s : State) : State := s.setPc (s.pc + 2)

/-- A skip: PC + 4 when the condition holds, PC + 2 otherwise (R108). -/
def State.skipIf (s : State) (c : Bool) : State := s.setPc (if c then s.pc + 4 else s.pc + 2)

/-- `I <- w` (R12: all 16 bits). -/
def State.setI (s : State) (w : Word) : State := { s with i := w }

/-! ### Memory -/

/-- The content of a cell after `Reset` (`70_reset_and_hazards.md` R261), and so what a cell that the
list does not name reads as: FONT_ROM at FONT_BASE, 0 elsewhere, all of it below 0x200 (log 31). -/
def Memory.resetByte (a : Nat) : Byte :=
  if Config.progBase ≤ a then 0
  else if Config.fontBase.val ≤ a then Config.fontRom.toList.getD (a - Config.fontBase.val) 0
  else 0

/-- `MEM[a]`. -/
def Memory.read : Memory → Nat → Byte
  | [], a => Memory.resetByte a
  | (k, w) :: rest, a => if k = a then w else Memory.read rest a

/-- `MEM[a] <- b`, keeping addresses rising and no cell at its reset content listed. -/
def Memory.write : Memory → Nat → Byte → Memory
  | [], a, b => if b = Memory.resetByte a then [] else [(a, b)]
  | (k, w) :: rest, a, b =>
    if k < a then (k, w) :: Memory.write rest a b
    else
      let above := if k = a then rest else (k, w) :: rest
      if b = Memory.resetByte a then above else (a, b) :: above

/-- The canonical form above a lower bound: addresses rise, none beyond 0xFFF, none at its reset content. -/
def Memory.wfFrom (lo : Nat) : Memory → Bool
  | [] => true
  | (k, w) :: rest =>
    decide (lo ≤ k) && decide (k ≤ Config.maxAddr) && decide (w ≠ Memory.resetByte k) &&
      Memory.wfFrom (k + 1) rest

/-- The canonical form of memory: equal memories are equal lists. -/
def Memory.wf (m : Memory) : Bool := Memory.wfFrom 0 m

/-- The bytes at `a`, `a + 1`, ..., `a + n - 1`, in ascending order (R45). -/
def Memory.readBytes (m : Memory) (a : Nat) : Nat → List Byte
  | 0 => []
  | n + 1 => m.read a :: Memory.readBytes m (a + 1) n

/-- Store the bytes at `a`, `a + 1`, ..., in ascending order (R45). -/
def Memory.writeBytes (m : Memory) (a : Nat) : List Byte → Memory
  | [] => m
  | b :: bs => Memory.writeBytes (m.write a b) (a + 1) bs

/-- `MemRead(addr, 1)`: no value beyond 0xFFF, where it raises MemoryBounds (R41). -/
def State.memRead (s : State) (a : Nat) : Option Byte :=
  if a ≤ Config.maxAddr then some (s.mem.read a) else none

/-- The bounds check of an access to `len` bytes from `base` (`20_memory.md` R48): on the highest address,
computed without any reduction (R40); no address, no check. -/
def inBounds (base len : Nat) : Bool := len == 0 || decide (base + len - 1 ≤ Config.maxAddr)

/-- Store bytes from an address on. -/
def State.storeBytes (s : State) (a : Nat) (bytes : List Byte) : State :=
  { s with mem := s.mem.writeBytes a bytes }

/-! ### Framebuffer -/

/-- `FB[x, y]` (R19). -/
def Framebuffer.pixel (fb : Framebuffer) (x y : Nat) : Bool :=
  if h : y < 32 then fb[y].getLsbD x else false

/-- `FB[x, y] <- FB[x, y] xor 1`. -/
def Framebuffer.flip (fb : Framebuffer) (x y : Nat) : Framebuffer :=
  if h : y < 32 then fb.set y (fb[y] ^^^ (1#64 <<< x)) else fb

/-- Every pixel 0 (R170). -/
def Framebuffer.clear : Framebuffer := Vector.replicate 32 0

/-! ### Taking a fatal status -/

/-- `raise <Name>` (`40_dispatch.md` R88, `60_exceptions.md` R229): FAULT receives the code and nothing else
changes: PC stays at the failing instruction, no other state is saved, control goes nowhere. The machine is
then Halted (R22). There is no return from it: only `Reset` leaves (R230), see `resetEvent`.
DESIGN CHOICE, log 9: a next state with the sticky FAULT set. -/
def raise (c : FaultCode) (s : State) : Result := .next { s with fault := c }

/-- `Reset` (R260), from any run state, the one exit from Halted (R230). What the host still plans and the
number of draws are the model's own and stay (log 30). -/
def resetEvent (s : State) : State := { State.reset with host := s.host, draws := s.draws }

end Sys2Proof.Machine
end

