-- ==== Sys2Proof/Machine/Operands.lean ====
section
/-! DEFINITION. The operand forms (`30_encoding.md` R63): registers, immediates, zero-extension, the key
and glyph named by a register, effective addresses. There is no other form. -/

namespace Sys2Proof.Machine

/-- `zext_16` of a 12-bit address (R63). -/
def zext12 (nnn : Addr12) : Word := nnn.zeroExtend 16

/-- `zext_16` of a byte (R103, R151). -/
def zext8 (b : Byte) : Word := b.zeroExtend 16

/-- `zext_8` of a key index (R194). -/
def zext4 (k : Nibble) : Byte := k.zeroExtend 8

/-- `v[3:0]`, the low nibble of a register's value (R152, R192). -/
def lowNibble (b : Byte) : Nibble := b.extractLsb' 0 4

/-- `KEYS[k]` (R18). -/
def State.keyPressed (s : State) (k : Nibble) : Bool := s.keys.getLsbD k.toNat

/-- The key `Ex9E` and `ExA1` test is the one the low nibble of Vx names (R192, D11, log 20). -/
def State.keyOfReg (s : State) (x : Nibble) : Bool := s.keyPressed (lowNibble (s.reg x))

/-- The address of the font glyph for a digit: FONT_BASE + FONT_STRIDE * d (R152). -/
def glyphAddr (d : Nibble) : Word := BitVec.ofNat 16 (Config.fontBase.val + Config.fontStride * d.toNat)

/-- The effective address `I + offset`, an integer without reduction (R156). -/
def State.effAddr (s : State) (offset : Nat) : Nat := s.i.toNat + offset

/-- How many registers `Fx55` and `Fx65` move: V0 to Vx (R154, R155). -/
def regCount (x : Nibble) : Nat := x.toNat + 1

/-- The values of V0, ..., Vx, ascending (R154). -/
def State.regsUpTo (s : State) (x : Nibble) : List Byte := s.v.toList.take (regCount x)

/-- The three decimal digits of a byte: hundreds, tens, ones (R153). -/
def decimalDigits (b : Byte) : List Byte :=
  [BitVec.ofNat 8 (b.toNat / 100), BitVec.ofNat 8 (b.toNat / 10 % 10), BitVec.ofNat 8 (b.toNat % 10)]

end Sys2Proof.Machine
end

