-- ==== Sys2Proof/Machine/Flags.lean ====
section
/-! DEFINITION. The flag computations. VF is the only flag (`10_state.md` R11); the flag writers set it to
1 or 0 on every execution. -/

namespace Sys2Proof.Machine

/-- A flag as VF holds it: 1 or 0 (R11). -/
def flagByte (f : Bool) : Byte := if f then 1 else 0

/-- `8xy4`: 1 if the sum exceeds 255 (R128). -/
def carryFlag (a b : Byte) : Byte := flagByte (decide (a.toNat + b.toNat > 255))

/-- `8xy5`, `8xy7`: 1 when no borrow was needed, minuend at least subtrahend (R129, R131, R134). -/
def noBorrowFlag (minuend subtrahend : Byte) : Byte :=
  flagByte (decide (minuend.toNat ≥ subtrahend.toNat))

/-- `8xy6`: the bit shifted out, the old bit 0 (R130). -/
def shiftedOutLow (a : Byte) : Byte := flagByte (a.getLsbD 0)

/-- `8xyE`: the bit shifted out, the old bit 7 (R132). -/
def shiftedOutHigh (a : Byte) : Byte := flagByte (a.getLsbD 7)

/-- The result is written first and the flag last, so with x = F the flag stays (`42_alu.md` R121, D12,
log 21). -/
def State.writeResultAndFlag (s : State) (x : Nibble) (result flag : Byte) : State :=
  (s.setReg x result).setReg regF flag

end Sys2Proof.Machine
end

