-- ==== Sys2Proof/Machine/Display.lean ====
section
/-! DEFINITION. The framebuffer writer (`44_framebuffer.md`): clear, and the XOR sprite draw with its
collision flag. The loops are those of R171. -/

namespace Sys2Proof.Machine

/-- The framebuffer and the collision flag while a sprite is drawn. -/
structure Canvas where
  fb : Framebuffer
  coll : Bool
  deriving DecidableEq, Repr

/-- Toggle one pixel, noting a collision when it was set (R171, R174). -/
def Canvas.toggle (c : Canvas) (x y : Nat) : Canvas where
  fb := c.fb.flip x y
  coll := c.coll || c.fb.pixel x y

/-- The columns `c`, `c + 1`, ..., `c + k - 1` of a sprite row `b`, bit 7 leftmost (R172, D14, log 23), from
column `x0` of row `y`, wrapping modulo 64 (R173). -/
def Canvas.drawColumns (b : Byte) (x0 y : Nat) : Nat → Nat → Canvas → Canvas
  | _, 0, cv => cv
  | c, k + 1, cv =>
    Canvas.drawColumns b x0 y (c + 1) k
      (if b.getLsbD (7 - c) then cv.toggle ((x0 + c) % Config.fbWidth) y else cv)

/-- One sprite row: eight columns. -/
def Canvas.drawRow (b : Byte) (x0 y : Nat) (cv : Canvas) : Canvas := Canvas.drawColumns b x0 y 0 8 cv

/-- The rows `r`, `r + 1`, ... of a sprite; rows wrap modulo 32 (R173, D13, log 22). -/
def Canvas.drawRows (x0 y0 : Nat) : Nat → List Byte → Canvas → Canvas
  | _, [], cv => cv
  | r, b :: bs, cv =>
    Canvas.drawRows x0 y0 (r + 1) bs (cv.drawRow b x0 ((y0 + r) % Config.fbHeight))

/-- The sprite: n bytes at I (R172). -/
def State.sprite (s : State) (n : Nibble) : List Byte := s.mem.readBytes (s.effAddr 0) n.toNat

/-- The framebuffer and the collision flag after the draw of R171; both coordinates are sampled before VF
is written. -/
def State.drawn (s : State) (x y n : Nibble) : Canvas :=
  Canvas.drawRows ((s.reg x).toNat % Config.fbWidth) ((s.reg y).toNat % Config.fbHeight) 0
    (s.sprite n) { fb := s.fb, coll := false }

/-- `00E0` CLS (R170). -/
def execCls (s : State) : Result := .next { s with fb := Framebuffer.clear }.advance

/-- `Dxyn` DRW Vx, Vy, n (R171): the bounds check comes before any pixel or VF is written. -/
def execDrw (x y n : Nibble) (s : State) : Result :=
  if inBounds (s.effAddr 0) n.toNat then
    .next ({ s with fb := (s.drawn x y n).fb }.setReg regF (flagByte (s.drawn x y n).coll)).advance
  else raise .memoryBounds s

end Sys2Proof.Machine
end

