-- ==== Sys2Proof/Machine/Flow.lean ====
section
/-! DEFINITION. Control transfer and the call stack (`41_flow_stack.md`). A target is not checked when it
is written to PC (R110). -/

namespace Sys2Proof.Machine

/-- The stack is empty: `(SP + 1) mod 256 = 0` (R15, R224). -/
def State.stackEmpty (s : State) : Bool := s.sp + 1 == 0

/-- The depth is 16: `(SP + 1) mod 256 = 16` (R221). -/
def State.stackFull (s : State) : Bool := s.sp + 1 == 16

/-- `00EE` RET (R100, D3). The popped entry keeps its value (R14). -/
def execRet (s : State) : Result :=
  if s.stackEmpty then raise .stackUnderflow s
  else if h : s.sp.toNat < 16 then .next ({ s with sp := s.sp - 1 }.setPc s.stack[s.sp.toNat])
  else .fault .stackPointerOutOfRange

/-- `1nnn` JP nnn (R101). -/
def execJp (nnn : Addr12) (s : State) : Result := .next (s.setPc (zext12 nnn))

/-- `2nnn` CALL nnn (R102): the entry pushed is the call's address + 2. -/
def execCall (nnn : Addr12) (s : State) : Result :=
  if s.stackFull then raise .stackOverflow s
  else if h : (s.sp + 1).toNat < 16 then
    .next ({ s with sp := s.sp + 1, stack := s.stack.set (s.sp + 1).toNat (s.pc + 2) }.setPc (zext12 nnn))
  else .fault .stackPointerOutOfRange

/-- `Bnnn` JP V0, nnn (R103): not reduced to 12 bits. -/
def execJpV0 (nnn : Addr12) (s : State) : Result := .next (s.setPc (zext12 nnn + zext8 (s.reg 0)))

/-- `3xkk` SE Vx, kk (R104). -/
def execSeImm (x : Nibble) (kk : Byte) (s : State) : Result := .next (s.skipIf (s.reg x == kk))

/-- `4xkk` SNE Vx, kk (R105). -/
def execSneImm (x : Nibble) (kk : Byte) (s : State) : Result := .next (s.skipIf (s.reg x != kk))

/-- `5xy0` SE Vx, Vy (R106). -/
def execSeReg (x y : Nibble) (s : State) : Result := .next (s.skipIf (s.reg x == s.reg y))

/-- `9xy0` SNE Vx, Vy (R107). -/
def execSneReg (x y : Nibble) (s : State) : Result := .next (s.skipIf (s.reg x != s.reg y))

end Sys2Proof.Machine
end

