-- ==== Sys2Proof/Machine/Alu.lean ====
section
/-! DEFINITION. Register file and ALU (`42_alu.md`). Source registers are read once, before any write
(R120); arithmetic is on unsigned bytes modulo 256 (R134). -/

namespace Sys2Proof.Machine

/-- `V[x] <- b; pc <- pc + 2`, without a flag. -/
def State.writeAndAdvance (s : State) (x : Nibble) (b : Byte) : State := (s.setReg x b).advance

/-- `V[x] <- result; V[F] <- flag; pc <- pc + 2` (R121). -/
def State.writeFlaggedAndAdvance (s : State) (x : Nibble) (result flag : Byte) : State :=
  (s.writeResultAndFlag x result flag).advance

/-- `6xkk` LD Vx, kk (R122). -/
def execLdImm (x : Nibble) (kk : Byte) (s : State) : Result := .next (s.writeAndAdvance x kk)

/-- `7xkk` ADD Vx, kk (R123): no flag effect. -/
def execAddImm (x : Nibble) (kk : Byte) (s : State) : Result := .next (s.writeAndAdvance x (s.reg x + kk))

/-- `8xy0` LD Vx, Vy (R124). -/
def execLdReg (x y : Nibble) (s : State) : Result := .next (s.writeAndAdvance x (s.reg y))

/-- `8xy1` OR Vx, Vy (R125): VF is not written. -/
def execOrReg (x y : Nibble) (s : State) : Result := .next (s.writeAndAdvance x (s.reg x ||| s.reg y))

/-- `8xy2` AND Vx, Vy (R126): VF is not written. -/
def execAndReg (x y : Nibble) (s : State) : Result := .next (s.writeAndAdvance x (s.reg x &&& s.reg y))

/-- `8xy3` XOR Vx, Vy (R127): VF is not written. -/
def execXorReg (x y : Nibble) (s : State) : Result := .next (s.writeAndAdvance x (s.reg x ^^^ s.reg y))

/-- `8xy4` ADD Vx, Vy (R128). -/
def execAddReg (x y : Nibble) (s : State) : Result :=
  .next (s.writeFlaggedAndAdvance x (s.reg x + s.reg y) (carryFlag (s.reg x) (s.reg y)))

/-- `8xy5` SUB Vx, Vy (R129). -/
def execSubReg (x y : Nibble) (s : State) : Result :=
  .next (s.writeFlaggedAndAdvance x (s.reg x - s.reg y) (noBorrowFlag (s.reg x) (s.reg y)))

/-- `8xy6` SHR Vx (R130): y is ignored (R69). -/
def execShr (x _y : Nibble) (s : State) : Result :=
  .next (s.writeFlaggedAndAdvance x (s.reg x >>> 1) (shiftedOutLow (s.reg x)))

/-- `8xy7` SUBN Vx, Vy (R131). -/
def execSubn (x y : Nibble) (s : State) : Result :=
  .next (s.writeFlaggedAndAdvance x (s.reg y - s.reg x) (noBorrowFlag (s.reg y) (s.reg x)))

/-- `8xyE` SHL Vx (R132): y is ignored (R69). -/
def execShl (x _y : Nibble) (s : State) : Result :=
  .next (s.writeFlaggedAndAdvance x (s.reg x <<< 1) (shiftedOutHigh (s.reg x)))

/-- `Cxkk` RND Vx, kk (R133): the byte is a free value, a new one at every execution (log 2). -/
def execRnd (x : Nibble) (kk : Byte) (s : State) : Result :=
  .next ({ s with draws := s.draws + 1 }.writeAndAdvance x (Config.rnd s.draws &&& kk))

end Sys2Proof.Machine
end

