-- ==== Sys2Proof/Machine/IndexMemory.lean ====
section
/-! DEFINITION. The index register and the memory instructions (`43_index_memory.md`). The base register I
is not changed by an access (R156), and all addresses are checked before any write (`20_memory.md` R48). -/

namespace Sys2Proof.Machine

/-- `Annn` LD I, nnn (R150). -/
def execLdI (nnn : Addr12) (s : State) : Result := .next (s.setI (zext12 nnn)).advance

/-- `Fx1E` ADD I, Vx (R151, D21): modulo 65536, no flag. -/
def execAddI (x : Nibble) (s : State) : Result := .next (s.setI (s.i + zext8 (s.reg x))).advance

/-- `Fx29` LD F, Vx (R152): reads no memory. -/
def execLdF (x : Nibble) (s : State) : Result := .next (s.setI (glyphAddr (lowNibble (s.reg x)))).advance

/-- `Fx33` LD B, Vx (R153). -/
def execLdB (x : Nibble) (s : State) : Result :=
  if inBounds (s.effAddr 0) 3 then
    .next (s.storeBytes (s.effAddr 0) (decimalDigits (s.reg x))).advance
  else raise .memoryBounds s

/-- `Fx55` LD [I], Vx (R154). -/
def execStoreRegs (x : Nibble) (s : State) : Result :=
  if inBounds (s.effAddr 0) (regCount x) then
    .next (s.storeBytes (s.effAddr 0) (s.regsUpTo x)).advance
  else raise .memoryBounds s

/-- `Fx65` LD Vx, [I] (R155). -/
def execLoadRegs (x : Nibble) (s : State) : Result :=
  if inBounds (s.effAddr 0) (regCount x) then
    .next { s with v := writeRegsFrom 0 (s.mem.readBytes (s.effAddr 0) (regCount x)) s.v }.advance
  else raise .memoryBounds s

end Sys2Proof.Machine
end

