-- ==== Sys2Proof/Machine/KeypadTimers.lean ====
section
/-! DEFINITION. Keypad and timer instructions, the wait poll, and the timer agent
(`45_keypad_timers.md`). -/

namespace Sys2Proof.Machine

/-- `Ex9E` SKP Vx (R190). -/
def execSkp (x : Nibble) (s : State) : Result := .next (s.skipIf (s.keyOfReg x))

/-- `ExA1` SKNP Vx (R191). -/
def execSknp (x : Nibble) (s : State) : Result := .next (s.skipIf (!s.keyOfReg x))

/-- `Fx0A` LD Vx, K (R193): enter suspension; PC is not written and the keypad is not looked at. -/
def execLdVxK (x : Nibble) (s : State) : Result := .next { s with wait := true, wreg := x }

/-- `Fx07` LD Vx, DT (R196). -/
def execLdVxDt (x : Nibble) (s : State) : Result := .next (s.writeAndAdvance x s.dt)

/-- `Fx15` LD DT, Vx (R197): TACC is not touched. -/
def execLdDtVx (x : Nibble) (s : State) : Result := .next { s with dt := s.reg x }.advance

/-- `Fx18` LD ST, Vx (R198). -/
def execLdStVx (x : Nibble) (s : State) : Result := .next { s with st := s.reg x }.advance

/-- The lowest pressed key at or above `k`, looking at `fuel` keys; 0 if there is none. -/
def lowestKeyFrom (keys : Word) (k : Nat) : Nat → Nibble
  | 0 => 0
  | fuel + 1 => if keys.getLsbD k then BitVec.ofNat 4 k else lowestKeyFrom keys (k + 1) fuel

/-- `key_select(K)` (R195, D10): always a pressed key when one is pressed, and any such choice is possible:
the host's free preference where it names a pressed key, else the lowest (log 3). -/
def keySelect (keys : Word) : Nibble :=
  if keys.getLsbD (Config.keyChoice keys).toNat then Config.keyChoice keys
  else lowestKeyFrom keys 0 16

/-- `WaitPoll()` (R194): level-sensitive; the tick that sees a key completes the `Fx0A` and fetches nothing
(D8, D9, log 19). -/
def waitPoll (s : State) : Result :=
  if s.keys = 0 then .next s
  else .next ({ s with wait := false }.writeAndAdvance s.wreg (zext4 (keySelect s.keys)))

/-- A timer one period later: floored at 0, never wrapping (R208). -/
def decrementTimer (t : Byte) : Byte := if 0 < t.toNat then t - 1 else t

/-- `TimerPulse` (R208): nothing but DT and ST changes, in every run state (R210). -/
def timerPulse (s : State) : State :=
  { s with dt := decrementTimer s.dt, st := decrementTimer s.st }

/-- A timer k periods later: `t - min(t, k)` (R209). -/
def timerAfter (t : Byte) (k : Nat) : Byte := BitVec.ofNat 8 (t.toNat - min t.toNat k)

/-- `AdvanceTimers(elapsed)` (R209). -/
def advanceTimers (elapsed : Nat) (s : State) : State :=
  { s with
    tacc := (s.tacc + elapsed) % Config.timerPeriod
    dt := timerAfter s.dt ((s.tacc + elapsed) / Config.timerPeriod)
    st := timerAfter s.st ((s.tacc + elapsed) / Config.timerPeriod) }

/-- `SetKeys(k)` (`10_state.md` R18). -/
def setKeys (k : Word) (s : State) : State := { s with keys := k }

end Sys2Proof.Machine
end

