-- ==== Sys2Proof/Machine/Tick.lean ====
section
/-! DEFINITION. The tick (`40_dispatch.md`): halted, suspended, fetch, decode, execute, in that order (R90). -/

namespace Sys2Proof.Machine

/-- `Fetch()` (R83): two bytes at PC, big-endian; none when PC > 0xFFE, whatever the parity of PC (R44). -/
def fetch (s : State) : Option Word :=
  if inBounds s.pc.toNat 2 then some (wordOfBytes (s.mem.read s.pc.toNat) (s.mem.read (s.pc.toNat + 1)))
  else none

/-- `IR <- w` after a completed fetch and before decode (R84, D6, log 17). -/
def State.setIr (s : State) (w : Word) : State := { s with ir := w }

/-- A tick that fetches ends the load window (`70_reset_and_hazards.md` R263, log 12). -/
def State.closeLoad (s : State) : State := { s with loadOpen := false }

/-- Decode and execute the fetched word (R85, R87); a word outside the table raises NotImplemented (R222). -/
def decodeAndExecute (w : Word) (s : State) : Result :=
  match decode w with
  | .ok i => exec i s
  | .error _ => raise .notImplemented s

/-- The tick of a running machine (R80). A failing fetch leaves IR unchanged. -/
def runningTick (s : State) : Result :=
  match fetch s with
  | none => raise .memoryBounds s.closeLoad
  | some w => decodeAndExecute w (s.closeLoad.setIr w)

/-- `Tick` (R80). Halted: it changes nothing (R81). Suspended: the poll in place of fetch (R82). -/
def tick (s : State) : Result :=
  if s.fault ≠ .none then .next s
  else if s.wait then waitPoll s
  else runningTick s

end Sys2Proof.Machine
end

