-- ==== Sys2Proof/Machine/Events.lean ====
section
/-! DEFINITION. The host's events (`00_scope.md` R6, `70_reset_and_hazards.md` R268), the replies they get,
and the read accessors (`10_state.md` R31). -/

namespace Sys2Proof.Machine

/-- The bytes of a word stream, each word big-endian (R263). -/
def bytesOfWords : List Word → List Byte
  | [] => []
  | w :: ws => highByte w :: lowByte w :: bytesOfWords ws

/-- `LoadROM` (R263): refused after the first tick (D19); a too large image writes nothing (R225);
otherwise the bytes are copied to 0x200 on and no other state is touched. -/
def loadRom (bytes : List Byte) (s : State) : Result :=
  if !s.loadOpen then .refused .loadAfterFirstTick
  else if imageWellFormed bytes then .next (s.storeBytes Config.progBase bytes)
  else .next s

/-- One event (R6). -/
def deliver (e : HostEvent) (s : State) : Result :=
  match e with
  | .tick => tick s
  | .timerPulse => .next (timerPulse s)
  | .advanceTimers elapsed => .next (advanceTimers elapsed s)
  | .setKeys k => .next (setKeys k s)
  | .reset => .next (resetEvent s)
  | .loadRom bytes => loadRom bytes s
  | .loadRomWords words => loadRom (bytesOfWords words) s

/-- One step of the machine: the host's next event, or a tick when nothing is scheduled (log 1). -/
def nextEvent (s : State) : Result :=
  match s.host with
  | [] => tick s
  | e :: rest => deliver e { s with host := rest }

/-- What an event gives back (R268). -/
inductive Reply where
  | ok
  | fail
  | loadTooLarge
  deriving DecidableEq, Repr

/-- The status of the tick that left this state (R80, R86): it fails exactly when it leaves FAULT nonzero
(R81, R88). -/
def State.status (s : State) : Reply := if s.fault = .none then .ok else .fail

/-- The reply of a load of this image where the load is defined (R225, R263). -/
def loadReply (bytes : List Byte) : Reply := if imageWellFormed bytes then .ok else .loadTooLarge

/-- The reply to an event delivered in a state; none where the event returns nothing or is refused. -/
def reply (e : HostEvent) (s : State) : Option Reply :=
  match e with
  | .tick =>
    match tick s with
    | .next t => some t.status
    | .fault _ => none
    | .refused _ => none
  | .loadRom bytes => if s.loadOpen then some (loadReply bytes) else none
  | .loadRomWords words => if s.loadOpen then some (loadReply (bytesOfWords words)) else none
  | .timerPulse => none
  | .advanceTimers _ => none
  | .setKeys _ => none
  | .reset => none

/-! ### Run state (`10_state.md` R22) -/

/-- "Running, WaitingForKey(WREG), Halted". -/
inductive RunState where
  | running
  | waitingForKey (target : Nibble)
  | halted (status : FaultCode)
  deriving DecidableEq, Repr

/-- A function of FAULT and WAIT, not a register (R22). -/
def State.runState (s : State) : RunState :=
  if s.fault ≠ .none then .halted s.fault
  else if s.wait then .waitingForKey s.wreg
  else .running

/-! ### Accessors (R31): reads without side effect -/

/-- The depth of the stack, `(SP + 1) mod 256` (R15). -/
def State.depth (s : State) : Nat := (s.sp + 1).toNat

/-- Stack-top value: `STACK[SP]` when the depth is at least 1; a free value per reading otherwise (U9,
log 14). -/
def State.stackTop (s : State) (reading : Nat) : Word :=
  if h : s.sp.toNat < 16 then s.stack[s.sp.toNat] else Config.emptyStackTop reading

/-- Memory cell a; a read outside the bounds is refused, it is no machine fault. -/
def State.memoryCell (s : State) (a : Nat) : Option Byte := s.memRead a

/-- Framebuffer dimensions. -/
def framebufferDimensions : Nat × Nat := (Config.fbWidth, Config.fbHeight)

/-- Framebuffer contents. -/
def State.pixel (s : State) (x y : Nat) : Bool := s.fb.pixel x y

/-- The numeric value of FAULT. -/
def State.faultValue (s : State) : BitVec 3 := s.fault.code

/-- The tone condition is exactly ST nonzero (`45_keypad_timers.md` R211). -/
def State.tone (s : State) : Bool := s.st != 0

end Sys2Proof.Machine
end

