-- ==== Sys2Proof/Machine/Step.lean ====
section
/-! DEFINITION. One step, and how a test places an instruction where the next step fetches it. -/

namespace Sys2Proof.Machine

/-- One step: the host's next event, or a tick when none is scheduled. -/
def step (s : State) : Host.Outcome State Fault Refusal := nextEvent s

/-- The state with the instruction word `w` stored where the next step fetches (log 13): at PC, in memory,
big-endian, as a load would place it. The step fetches only when no event is scheduled, the machine is
neither halted nor suspended, and PC is not above 0xFFE; those are set, and are so already after reset. -/
def State.withFetchWord (s : State) (nbits w : Nat) : State :=
  let pc : Word := if s.pc.toNat ≤ 0xFFE then s.pc else 0x200
  { s with
    pc := pc
    host := []
    fault := .none
    wait := false
    mem := s.mem.writeBytes pc.toNat [highByte (tableWord nbits w), lowByte (tableWord nbits w)] }

end Sys2Proof.Machine
end

