-- ==== Sys2Proof/Safety.lean ====
section
/-! DEFINITION. What counts as a good state and a good run, and the vocabulary of frames, in the terms the
claims use. -/

namespace Sys2Proof.Machine

/-- The machine is Halted (`10_state.md` R22). A halted state is the spec's "fault" (`60_exceptions.md`
R229): FAULT is sticky and the run is never a success. -/
def State.Halted (s : State) : Prop := s.fault ≠ .none

/-- A step that may be part of a successful run: it answers a next state that is not halted (R229, R271). -/
def Succeeds (r : Result) : Prop := ∃ t, r = .next t ∧ ¬ t.Halted

/-- The machine is Running, so a tick fetches (`10_state.md` R22, `40_dispatch.md` R80). -/
def State.Running (s : State) : Prop := s.fault = .none ∧ s.wait = false

/-- The machine is WaitingForKey, so a tick polls (`10_state.md` R22, `40_dispatch.md` R82). -/
def State.Waiting (s : State) : Prop := s.fault = .none ∧ s.wait = true

/-- The word at PC, high byte first (`20_memory.md` R43). -/
def State.wordAtPc (s : State) : Word :=
  wordOfBytes (s.mem.read s.pc.toNat) (s.mem.read (s.pc.toNat + 1))

/-! ### Runs and their end (`70_reset_and_hazards.md` R271)

No instruction stops the machine, so the end of a run is the model's to define: R271's two examples are defined here
(DESIGN CHOICE, log 33). A run that passes a fatal status is no success (`60_exceptions.md` R229). -/

/-- The state after so many steps, or the stop of the first step that has no next state. -/
def run : Nat → State → Result
  | 0, s => .next s
  | k + 1, s =>
    match step s with
    | .next t => run k t
    | .fault f => .fault f
    | .refused r => .refused r

/-- The next step is a tick: one is scheduled, or nothing is (log 1). -/
def State.ticksNext (s : State) : Bool := s.host.head?.all (· == .tick)

/-- How many of the first so many steps are ticks. -/
def ticksIn : Nat → State → Nat
  | 0, _ => 0
  | k + 1, s =>
    match step s with
    | .next t => (if s.ticksNext then 1 else 0) + ticksIn k t
    | .fault _ => 0
    | .refused _ => 0

/-- "PC holds the address of a `1nnn` whose nnn is that address, WAIT = 0 and FAULT = 0" (R271, R72). -/
def State.AtSelfJump (s : State) : Prop :=
  s.Running ∧ s.pc.toNat ≤ 0xFFE ∧ ∃ nnn, decode s.wordAtPc = .ok (.jp nnn) ∧ s.pc.toNat = nnn.toNat

/-- So many steps lead to a state, and no state on the way is halted. -/
def SucceedsTo (k : Nat) (s t : State) : Prop := run k s = .next t ∧ ∀ j, j ≤ k → Succeeds (run j s)

/-- The run ends, at a jump to itself. -/
def EndsAtSelfJump (s t : State) : Prop := ∃ k, SucceedsTo k s t ∧ t.AtSelfJump

/-- The run ends, "after N ticks". -/
def EndsAfterTicks (n : Nat) (s t : State) : Prop := ∃ k, SucceedsTo k s t ∧ ticksIn k s = n

/-- The run ends by a tick that returns FAIL: a fault, never a successful end. -/
def EndsInFault (s t : State) : Prop := ∃ k, run k s = .next t ∧ t.Halted

/-! ### The invariant -/

/-- The legal values of SP (`10_state.md` R15). -/
def State.SpLegal (s : State) : Prop := s.sp = Config.spEmpty ∨ s.sp.toNat < Config.stackDepth

/-- The invariants of `10_state.md` R28 that the types do not carry already, with what makes them
inductive. -/
structure State.Inv (s : State) : Prop where
  /-- SP is 0xFF or 0x00 to 0x0F -/
  spLegal : s.SpLegal
  /-- PC ≤ 0x10FE -/
  pcBound : s.pc.toNat ≤ 0x10FE
  /-- every stack entry is at most 0x1000 -/
  stackBound : ∀ k : Fin 16, (s.stack.get k).toNat ≤ 0x1000
  /-- not (WAIT = 1 and FAULT ≠ 0) -/
  notBoth : ¬ (s.wait = true ∧ s.fault ≠ .none)
  /-- a suspended machine stands at a fetchable `Fx0A` -/
  waitPc : s.wait = true → s.pc.toNat ≤ 0xFFE
  /-- while suspended IR holds the `Fx0A` word of the target (R23) -/
  waitIr : s.wait = true → decode s.ir = .ok (.ldVxK s.wreg)
  /-- TACC < TIMER_PERIOD (R24) -/
  taccBound : s.tacc < Config.timerPeriod
  /-- memory is in its canonical form -/
  memWf : s.mem.wf = true
  /-- before the first tick after a reset the machine is Running -/
  loadRunning : s.loadOpen = true → s.Running

/-! ### Frames -/

/-- The elements of State, for frames. -/
inductive Element where
  | regs | i | pc | stack | sp | dt | st | keys | fb | wait | wreg | fault | ir | tacc | mem
  | host | draws | loadOpen
  deriving DecidableEq, Repr

/-- Two states agree on an element: on every register, on every byte of memory. -/
def Element.Agrees (s t : State) : Element → Prop
  | .regs => ∀ r, t.reg r = s.reg r
  | .i => t.i = s.i
  | .pc => t.pc = s.pc
  | .stack => t.stack = s.stack
  | .sp => t.sp = s.sp
  | .dt => t.dt = s.dt
  | .st => t.st = s.st
  | .keys => t.keys = s.keys
  | .fb => t.fb = s.fb
  | .wait => t.wait = s.wait
  | .wreg => t.wreg = s.wreg
  | .fault => t.fault = s.fault
  | .ir => t.ir = s.ir
  | .tacc => t.tacc = s.tacc
  | .mem => ∀ a, t.mem.read a = s.mem.read a
  | .host => t.host = s.host
  | .draws => t.draws = s.draws
  | .loadOpen => t.loadOpen = s.loadOpen

/-- The frame: every element outside `changed` is as before. -/
def SameExcept (changed : List Element) (s t : State) : Prop :=
  ∀ e, e ∉ changed → Element.Agrees s t e

/-- The elements an instruction may write: PC always but for `Fx0A`, which writes WAIT and WREG (R86, R193);
FAULT where the instruction has a check of its own (`60_exceptions.md` R228); the rest as each instruction's
rule says. -/
def mayWrite : Instr → List Element
  | .cls => [.pc, .fb]
  | .ret => [.pc, .sp, .fault]
  | .jp _ => [.pc]
  | .call _ => [.pc, .sp, .stack, .fault]
  | .seImm _ _ => [.pc]
  | .sneImm _ _ => [.pc]
  | .seReg _ _ => [.pc]
  | .ldImm _ _ => [.pc, .regs]
  | .addImm _ _ => [.pc, .regs]
  | .ldReg _ _ => [.pc, .regs]
  | .orReg _ _ => [.pc, .regs]
  | .andReg _ _ => [.pc, .regs]
  | .xorReg _ _ => [.pc, .regs]
  | .addReg _ _ => [.pc, .regs]
  | .subReg _ _ => [.pc, .regs]
  | .shr _ _ => [.pc, .regs]
  | .subn _ _ => [.pc, .regs]
  | .shl _ _ => [.pc, .regs]
  | .sneReg _ _ => [.pc]
  | .ldI _ => [.pc, .i]
  | .jpV0 _ => [.pc]
  | .rnd _ _ => [.pc, .regs, .draws]
  | .drw _ _ _ => [.pc, .regs, .fb, .fault]
  | .skp _ => [.pc]
  | .sknp _ => [.pc]
  | .ldVxDt _ => [.pc, .regs]
  | .ldVxK _ => [.wait, .wreg]
  | .ldDtVx _ => [.pc, .dt]
  | .ldStVx _ => [.pc, .st]
  | .addI _ => [.pc, .i]
  | .ldF _ => [.pc, .i]
  | .ldB _ => [.pc, .mem, .fault]
  | .storeRegs _ => [.pc, .mem, .fault]
  | .loadRegs _ => [.pc, .regs, .fault]

/-- The registers an instruction may write: its destination, and VF for exactly the flag writers of
`10_state.md` R11. -/
def destRegs : Instr → List Nibble
  | .ldImm x _ => [x]
  | .addImm x _ => [x]
  | .ldReg x _ => [x]
  | .orReg x _ => [x]
  | .andReg x _ => [x]
  | .xorReg x _ => [x]
  | .addReg x _ => [x, regF]
  | .subReg x _ => [x, regF]
  | .shr x _ => [x, regF]
  | .subn x _ => [x, regF]
  | .shl x _ => [x, regF]
  | .rnd x _ => [x]
  | .drw _ _ _ => [regF]
  | .ldVxDt x => [x]
  | .loadRegs x => (List.range (x.toNat + 1)).map (BitVec.ofNat 4)
  | .cls => []
  | .ret => []
  | .jp _ => []
  | .call _ => []
  | .seImm _ _ => []
  | .sneImm _ _ => []
  | .seReg _ _ => []
  | .sneReg _ _ => []
  | .ldI _ => []
  | .jpV0 _ => []
  | .skp _ => []
  | .sknp _ => []
  | .ldVxK _ => []
  | .ldDtVx _ => []
  | .ldStVx _ => []
  | .addI _ => []
  | .ldF _ => []
  | .ldB _ => []
  | .storeRegs _ => []

/-- The instruction's own check (`60_exceptions.md` R228): the fatal status it raises in a state, if any. -/
def ownCheck (i : Instr) (s : State) : FaultCode :=
  match i with
  | .ret => if s.sp = 0xFF then .stackUnderflow else .none
  | .call _ => if s.sp = 0x0F then .stackOverflow else .none
  | .drw _ _ n => if n ≠ 0 ∧ s.i.toNat + n.toNat - 1 > 0xFFF then .memoryBounds else .none
  | .ldB _ => if s.i.toNat + 2 > 0xFFF then .memoryBounds else .none
  | .storeRegs x => if s.i.toNat + x.toNat > 0xFFF then .memoryBounds else .none
  | .loadRegs x => if s.i.toNat + x.toNat > 0xFFF then .memoryBounds else .none
  | .cls | .jp _ | .seImm _ _ | .sneImm _ _ | .seReg _ _ | .ldImm _ _ | .addImm _ _ | .ldReg _ _
  | .orReg _ _ | .andReg _ _ | .xorReg _ _ | .addReg _ _ | .subReg _ _ | .shr _ _ | .subn _ _
  | .shl _ _ | .sneReg _ _ | .ldI _ | .jpV0 _ | .rnd _ _ | .skp _ | .sknp _ | .ldVxDt _ | .ldVxK _
  | .ldDtVx _ | .ldStVx _ | .addI _ | .ldF _ => .none

/-- The fatal status a running tick reports: the first failing check in the order fetch, decode, the
instruction's own (`40_dispatch.md` R90, `60_exceptions.md` R228). -/
def firstFailingCheck (s : State) : FaultCode :=
  if s.pc.toNat > 0xFFE then .memoryBounds
  else match decode s.wordAtPc with
    | .error _ => .notImplemented
    | .ok i => ownCheck i s

/-- The registers outside a list are as before. -/
def RegsSameExcept (changed : List Nibble) (s t : State) : Prop :=
  ∀ r, r ∉ changed → t.reg r = s.reg r

end Sys2Proof.Machine
end

