-- ==== Sys2Proof/Certificates/Slice0/Obligations.lean ====
section
/-! DEFINITION. The statements for the provers. Rule numbers are those of spec/. A statement marked "stated" in
OBLIGATIONS.json formalises the rules it cites; the docstring says which clause rests on a decision of the
spec (D<n>) or on a choice of the model (log <n>). The frame `SameExcept changed s t` says that every element
of State outside `changed` is as before, every register and every byte of memory among them. -/

open Sys2Proof Sys2Proof.Machine

/-! ### Encoding -/

/-- R60 to R66: every instruction, with every operand, is what its own two bytes decode to, and the bytes after
them are left. -/
def Obligations.DecodeOfEncodedBytesIsIdentity : Prop :=
  ∀ (i : Instr) (rest : List Byte), decodeBytes (encodeBytes i ++ rest) = .ok (i, rest)

/-- R69: no bit of a decoded word is dropped. (The y of the shifts is kept in the syntax, log 29.) -/
def Obligations.EncodeOfDecodedWordIsIdentity : Prop :=
  ∀ (w : Word) (i : Instr), decode w = .ok i → encode i = w

/-- R66: a word is the instruction of a row exactly when `(w and mask) = match`, and no two rows match the same
word. -/
def Obligations.DecodeFollowsTheOpcodeTable : Prop :=
  ∀ w : Word,
    (∀ row ∈ opcodeTable, row.matchesWord w = true ↔ ∃ i, decode w = .ok i ∧ i.row = row) ∧
    (∀ r₁ ∈ opcodeTable, ∀ r₂ ∈ opcodeTable,
      r₁.matchesWord w = true → r₂.matchesWord w = true → r₁ = r₂)

/-- R64, R68, R222: a fetched word that matches no row halts the machine with NotImplemented, nothing else
changing but IR. The words of families 5 and 9 among them are the spec's decision D16 (log 24), FAULT its D5
(log 9), the update of IR its D6 (log 17), the fetch at an odd PC its D7 (log 18); the load window is the
model's own (log 12). -/
def Obligations.UnlistedWordHaltsWithNotImplemented : Prop :=
  ∀ s : State, s.host = [] → s.Running → s.pc.toNat ≤ 0xFFE → wordWellFormed s.wordAtPc = false →
    step s = .next { s with fault := .notImplemented, ir := s.wordAtPc, loadOpen := false }

/-- Words written out from the patterns of R66, one or more of each of the sixteen families. -/
def Obligations.SampleWordsDecodeAsThePatternsSay : Prop :=
  decode 0x00E0 = .ok .cls ∧ decode 0x00EE = .ok .ret ∧ decode 0x1122 = .ok (.jp 0x122) ∧
  decode 0x2210 = .ok (.call 0x210) ∧ decode 0x332A = .ok (.seImm 3 0x2A) ∧
  decode 0x432A = .ok (.sneImm 3 0x2A) ∧ decode 0x71FF = .ok (.addImm 1 0xFF) ∧
  decode 0x9120 = .ok (.sneReg 1 2) ∧ decode 0xAFFF = .ok (.ldI 0xFFF) ∧ decode 0xC10F = .ok (.rnd 1 0x0F) ∧
  decode 0x5120 = .ok (.seReg 1 2) ∧ decode 0x6A3C = .ok (.ldImm 10 0x3C) ∧
  decode 0x8AB6 = .ok (.shr 10 11) ∧ decode 0xBFFF = .ok (.jpV0 0xFFF) ∧
  decode 0xD012 = .ok (.drw 0 1 2) ∧ decode 0xE1A1 = .ok (.sknp 1) ∧ decode 0xF50A = .ok (.ldVxK 5) ∧
  decode 0xF155 = .ok (.storeRegs 1)

/-! ### The tick -/

/-- R80, R83 to R85, R87: a step with nothing scheduled, or with a scheduled tick (log 1, the model's choice),
runs the instruction that the two bytes at PC decode to. PC is not moved before the instruction. That IR holds
the word already is the spec's decision D6 (log 17), that an odd PC is fetched as it stands its D7 (log 18);
that the load window closes is the model's choice (log 12). -/
def Obligations.StepRunsTheDecodedInstruction : Prop :=
  ∀ (s : State) (rest : List HostEvent) (i : Instr), s.Running → s.pc.toNat ≤ 0xFFE →
    decode s.wordAtPc = .ok i →
    (s.host = [] → step s = exec i { s with ir := s.wordAtPc, loadOpen := false }) ∧
    (s.host = .tick :: rest →
      step s = exec i { s with ir := s.wordAtPc, loadOpen := false, host := rest })

/-- R83: PC above 0xFFE is fatal. The status is the spec's decision D4 (log 15), FAULT its D5 (log 9), that IR
is left unchanged its D6 (log 17); the load window is the model's choice (log 12). -/
def Obligations.UnfetchablePcHaltsWithMemoryBounds : Prop :=
  ∀ s : State, s.Running → 0xFFE < s.pc.toNat →
    tick s = .next { s with fault := .memoryBounds, loadOpen := false } ∧ reply .tick s = some .fail

/-- R81: a tick of a halted machine changes nothing and fails (the spec's decision D5, log 9). -/
def Obligations.HaltedTickChangesNothingAndFails : Prop :=
  ∀ s : State, s.Halted → tick s = .next s ∧ reply .tick s = some .fail

/-- R88: a tick that raises changes nothing but FAULT, and IR when the fetch had completed, and fails. FAULT is
the spec's decision D5 (log 9), when IR changes its D6 (log 17), the fetch at an odd PC its D7 (log 18); the
load window is the model's choice (log 12). -/
def Obligations.FailingTickChangesOnlyFaultAndIr : Prop :=
  ∀ s t : State, s.Running → tick s = .next t → t.Halted →
    t = { s with fault := t.fault, ir := if s.pc.toNat ≤ 0xFFE then s.wordAtPc else s.ir,
                 loadOpen := false } ∧
    reply .tick s = some .fail

/-- R90, R228: a running tick answers a next state whose FAULT is the first failing check in the order fetch
bounds, decode, the instruction's own check; it is 0 when none fails. The statuses are the spec's decisions:
FAULT itself D5 (log 9), MemoryBounds D4 (log 15), StackUnderflow D3 (log 16), NotImplemented for the words of
families 5 and 9 D16 (log 24); the fetch at an odd PC is its D7 (log 18). -/
def Obligations.TickReportsTheFirstFailingCheck : Prop :=
  ∀ s : State, s.Running → s.SpLegal →
    ∃ t, tick s = .next t ∧ t.fault = firstFailingCheck s ∧
      reply .tick s = some (if firstFailingCheck s = .none then .ok else .fail)

/-! ### Control transfer and the stack -/

/-- R101. -/
def Obligations.JumpSetsPcToNnn : Prop :=
  ∀ (nnn : Addr12) (s : State), decode (0x1#4 ++ nnn) = .ok (.jp nnn) ∧
    ∃ t, exec (.jp nnn) s = .next t ∧ t.pc.toNat = nnn.toNat ∧ SameExcept [.pc] s t

/-- R103: the sum is not reduced to 12 bits. -/
def Obligations.JumpV0AddsV0ToNnn : Prop :=
  ∀ (nnn : Addr12) (s : State), decode (0xB#4 ++ nnn) = .ok (.jpV0 nnn) ∧
    ∃ t, exec (.jpV0 nnn) s = .next t ∧ t.pc.toNat = nnn.toNat + (s.reg 0).toNat ∧
      SameExcept [.pc] s t

/-- R102: with 16 entries in use StackOverflow and no other change; otherwise SP is incremented modulo 256, the
address of the call plus 2 is pushed and PC goes to nnn. The values of SP are the spec's decision D2 (log 11),
FAULT its D5 (log 9). -/
def Obligations.CallPushesTheResumeAddress : Prop :=
  ∀ (nnn : Addr12) (s : State), s.SpLegal → decode (0x2#4 ++ nnn) = .ok (.call nnn) ∧
    (s.sp = 0x0F → exec (.call nnn) s = .next { s with fault := .stackOverflow }) ∧
    (s.sp ≠ 0x0F → ∃ t, exec (.call nnn) s = .next t ∧ t.pc.toNat = nnn.toNat ∧
      t.sp.toNat = (s.sp.toNat + 1) % 256 ∧
      (∀ k : Fin 16, t.stack.get k = if k.val = t.sp.toNat then s.pc + 2 else s.stack.get k) ∧
      SameExcept [.pc, .sp, .stack] s t)

/-- R100: the top entry goes to PC unchanged, SP is decremented modulo 256, no entry is cleared. On an empty
stack StackUnderflow with no other change is the spec's decision D3 (log 16), FAULT its D5 (log 9), the values
of SP its D2 (log 11). -/
def Obligations.RetPopsTheResumeAddress : Prop :=
  ∀ s : State, decode 0x00EE = .ok .ret ∧
    (s.sp = 0xFF → exec .ret s = .next { s with fault := .stackUnderflow }) ∧
    (∀ h : s.sp.toNat < 16, ∃ t, exec .ret s = .next t ∧ t.pc = s.stack[s.sp.toNat] ∧
      t.sp.toNat = (s.sp.toNat + 255) % 256 ∧ SameExcept [.pc, .sp] s t)

/-- R109: after a call and its matching return PC is the address of the call plus 2 and SP is as before,
whatever the subroutine did to the rest of the state, the entries above its own return address among it (R14:
its own calls leave stale entries there). The values of SP are the spec's decision D2 (log 11). -/
def Obligations.CallThenRetResumesAfterTheCall : Prop :=
  ∀ (nnn : Addr12) (s t u : State), s.SpLegal → s.sp ≠ 0x0F → exec (.call nnn) s = .next t →
    u.sp = t.sp → (∀ k : Fin 16, k.val = t.sp.toNat → u.stack.get k = t.stack.get k) →
    ∃ w, exec .ret u = .next w ∧ w.pc = s.pc + 2 ∧ w.sp = s.sp ∧ w.stack = u.stack

/-- R15: SP at a value that no rule produces names no entry; the model stops there (log 11, the model's choice). -/
def Obligations.IllegalStackPointerStops : Prop :=
  ∀ (nnn : Addr12) (s : State), 16 ≤ s.sp.toNat → s.sp.toNat ≤ 254 →
    exec .ret s = .fault .stackPointerOutOfRange ∧ exec (.call nnn) s = .fault .stackPointerOutOfRange

/-- R104, R105 (and R108): comparisons with an immediate. -/
def Obligations.ImmediateSkipsAdvanceByFourOrTwo : Prop :=
  ∀ (x : Nibble) (kk : Byte) (s : State),
    decode (0x3#4 ++ x ++ kk) = .ok (.seImm x kk) ∧ decode (0x4#4 ++ x ++ kk) = .ok (.sneImm x kk) ∧
    (∃ t, exec (.seImm x kk) s = .next t ∧
      t.pc = (if s.reg x = kk then s.pc + 4 else s.pc + 2) ∧ SameExcept [.pc] s t) ∧
    (∃ t, exec (.sneImm x kk) s = .next t ∧
      t.pc = (if s.reg x ≠ kk then s.pc + 4 else s.pc + 2) ∧ SameExcept [.pc] s t)

/-- R106, R107 (and R108): comparisons of two registers. A nonzero low nibble is no instruction (the spec's
decision D16, log 24). -/
def Obligations.RegisterSkipsAdvanceByFourOrTwo : Prop :=
  ∀ (x y : Nibble) (s : State),
    (∀ n : Nibble, decode (0x5#4 ++ x ++ y ++ n) =
      if n = 0 then .ok (.seReg x y) else .error (.notImplemented (0x5#4 ++ x ++ y ++ n))) ∧
    (∀ n : Nibble, decode (0x9#4 ++ x ++ y ++ n) =
      if n = 0 then .ok (.sneReg x y) else .error (.notImplemented (0x9#4 ++ x ++ y ++ n))) ∧
    (∃ t, exec (.seReg x y) s = .next t ∧
      t.pc = (if s.reg x = s.reg y then s.pc + 4 else s.pc + 2) ∧ SameExcept [.pc] s t) ∧
    (∃ t, exec (.sneReg x y) s = .next t ∧
      t.pc = (if s.reg x ≠ s.reg y then s.pc + 4 else s.pc + 2) ∧ SameExcept [.pc] s t)

/-! ### Register file and ALU -/

/-- R122, R123: load and add an immediate; the add wraps and has no flag effect, so VF changes only as the
destination. -/
def Obligations.ImmediateLoadAndAddWriteOnlyVx : Prop :=
  ∀ (x : Nibble) (kk : Byte) (s : State),
    decode (0x6#4 ++ x ++ kk) = .ok (.ldImm x kk) ∧ decode (0x7#4 ++ x ++ kk) = .ok (.addImm x kk) ∧
    (∃ t, exec (.ldImm x kk) s = .next t ∧ t.reg x = kk ∧ t.pc = s.pc + 2 ∧
      RegsSameExcept [x] s t ∧ SameExcept [.regs, .pc] s t) ∧
    (∃ t, exec (.addImm x kk) s = .next t ∧ (t.reg x).toNat = ((s.reg x).toNat + kk.toNat) % 256 ∧
      t.pc = s.pc + 2 ∧ RegsSameExcept [x] s t ∧ SameExcept [.regs, .pc] s t)

/-- R124 to R127: LD, OR, AND, XOR of two registers, bit by bit; none of them writes VF as a flag. -/
def Obligations.RegisterMoveAndLogicWriteOnlyVx : Prop :=
  ∀ (x y : Nibble) (s : State),
    decode (0x8#4 ++ x ++ y ++ 0x0#4) = .ok (.ldReg x y) ∧ decode (0x8#4 ++ x ++ y ++ 0x1#4) = .ok (.orReg x y) ∧
    decode (0x8#4 ++ x ++ y ++ 0x2#4) = .ok (.andReg x y) ∧
    decode (0x8#4 ++ x ++ y ++ 0x3#4) = .ok (.xorReg x y) ∧
    (∃ t, exec (.ldReg x y) s = .next t ∧ t.reg x = s.reg y ∧ t.pc = s.pc + 2 ∧
      RegsSameExcept [x] s t ∧ SameExcept [.regs, .pc] s t) ∧
    (∃ t, exec (.orReg x y) s = .next t ∧
      (∀ k, (t.reg x).getLsbD k = ((s.reg x).getLsbD k || (s.reg y).getLsbD k)) ∧ t.pc = s.pc + 2 ∧
      RegsSameExcept [x] s t ∧ SameExcept [.regs, .pc] s t) ∧
    (∃ t, exec (.andReg x y) s = .next t ∧
      (∀ k, (t.reg x).getLsbD k = ((s.reg x).getLsbD k && (s.reg y).getLsbD k)) ∧ t.pc = s.pc + 2 ∧
      RegsSameExcept [x] s t ∧ SameExcept [.regs, .pc] s t) ∧
    (∃ t, exec (.xorReg x y) s = .next t ∧
      (∀ k, (t.reg x).getLsbD k = ((s.reg x).getLsbD k ^^ (s.reg y).getLsbD k)) ∧ t.pc = s.pc + 2 ∧
      RegsSameExcept [x] s t ∧ SameExcept [.regs, .pc] s t)

/-- R128: the sum modulo 256 in Vx, the carry in VF, written last, so that with x = F the sum is lost (the
spec's decision D12, log 21). -/
def Obligations.AddWritesSumThenCarry : Prop :=
  ∀ (x y : Nibble) (s : State), decode (0x8#4 ++ x ++ y ++ 0x4#4) = .ok (.addReg x y) ∧
    ∃ t, exec (.addReg x y) s = .next t ∧
      (x ≠ regF → (t.reg x).toNat = ((s.reg x).toNat + (s.reg y).toNat) % 256) ∧
      (t.reg regF).toNat = (if (s.reg x).toNat + (s.reg y).toNat > 255 then 1 else 0) ∧
      t.pc = s.pc + 2 ∧ RegsSameExcept [x, regF] s t ∧ SameExcept [.regs, .pc] s t

/-- R129, R131: the difference modulo 256 in Vx, 1 in VF when no borrow was needed; with x = F the flag stays (the
spec's decision D12, log 21). -/
def Obligations.SubtractionsWriteDifferenceThenNoBorrow : Prop :=
  ∀ (x y : Nibble) (s : State),
    decode (0x8#4 ++ x ++ y ++ 0x5#4) = .ok (.subReg x y) ∧ decode (0x8#4 ++ x ++ y ++ 0x7#4) = .ok (.subn x y) ∧
    (∃ t, exec (.subReg x y) s = .next t ∧
      (x ≠ regF → (t.reg x).toNat = ((s.reg x).toNat + 256 - (s.reg y).toNat) % 256) ∧
      (t.reg regF).toNat = (if (s.reg x).toNat ≥ (s.reg y).toNat then 1 else 0) ∧
      t.pc = s.pc + 2 ∧ RegsSameExcept [x, regF] s t ∧ SameExcept [.regs, .pc] s t) ∧
    (∃ t, exec (.subn x y) s = .next t ∧
      (x ≠ regF → (t.reg x).toNat = ((s.reg y).toNat + 256 - (s.reg x).toNat) % 256) ∧
      (t.reg regF).toNat = (if (s.reg y).toNat ≥ (s.reg x).toNat then 1 else 0) ∧
      t.pc = s.pc + 2 ∧ RegsSameExcept [x, regF] s t ∧ SameExcept [.regs, .pc] s t)

/-- R130, R132: the shift by one of Vx itself, the bit shifted out in VF; y is ignored. With x = F the flag stays
(the spec's decision D12, log 21). -/
def Obligations.ShiftsWriteResultThenBitOut : Prop :=
  ∀ (x y : Nibble) (s : State),
    decode (0x8#4 ++ x ++ y ++ 0x6#4) = .ok (.shr x y) ∧ decode (0x8#4 ++ x ++ y ++ 0xE#4) = .ok (.shl x y) ∧
    (∃ t, exec (.shr x y) s = .next t ∧
      (x ≠ regF → (t.reg x).toNat = (s.reg x).toNat / 2) ∧
      (t.reg regF).toNat = (s.reg x).toNat % 2 ∧
      t.pc = s.pc + 2 ∧ RegsSameExcept [x, regF] s t ∧ SameExcept [.regs, .pc] s t) ∧
    (∃ t, exec (.shl x y) s = .next t ∧
      (x ≠ regF → (t.reg x).toNat = (s.reg x).toNat * 2 % 256) ∧
      (t.reg regF).toNat = (s.reg x).toNat / 128 ∧
      t.pc = s.pc + 2 ∧ RegsSameExcept [x, regF] s t ∧ SameExcept [.regs, .pc] s t)

/-- R133: the result is the drawn byte masked by kk, so every bit that is 0 in kk is 0; a new byte is drawn at every
execution (D20; the free value is log 2, and nothing rests on what it is). -/
def Obligations.RandomByteIsMasked : Prop :=
  ∀ (x : Nibble) (kk : Byte) (s : State), decode (0xC#4 ++ x ++ kk) = .ok (.rnd x kk) ∧
    ∃ t, exec (.rnd x kk) s = .next t ∧
      (∀ k, (t.reg x).getLsbD k = ((Config.rnd s.draws).getLsbD k && kk.getLsbD k)) ∧
      t.draws = s.draws + 1 ∧ t.pc = s.pc + 2 ∧ RegsSameExcept [x] s t ∧
      SameExcept [.regs, .pc, .draws] s t

/-! ### Index register and memory -/

/-- R150. -/
def Obligations.LoadIndexSetsI : Prop :=
  ∀ (nnn : Addr12) (s : State), decode (0xA#4 ++ nnn) = .ok (.ldI nnn) ∧
    ∃ t, exec (.ldI nnn) s = .next t ∧ t.i.toNat = nnn.toNat ∧ t.pc = s.pc + 2 ∧
      SameExcept [.i, .pc] s t

/-- R151: a 16-bit add without a flag; that it wraps at 65536 is the spec's decision D21 (log 25). -/
def Obligations.AddIndexIsSixteenBitsWide : Prop :=
  ∀ (x : Nibble) (s : State), decode (0xF#4 ++ x ++ 0x1E#8) = .ok (.addI x) ∧
    ∃ t, exec (.addI x) s = .next t ∧ t.i.toNat = (s.i.toNat + (s.reg x).toNat) % 65536 ∧
      t.pc = s.pc + 2 ∧ SameExcept [.i, .pc] s t

/-- R152: the low nibble names the glyph; FONT_BASE is free (log 4) and FONT_STRIDE 5 is the spec's from general
knowledge (log 6). -/
def Obligations.GlyphAddressUsesTheLowNibble : Prop :=
  ∀ (x : Nibble) (s : State), decode (0xF#4 ++ x ++ 0x29#8) = .ok (.ldF x) ∧
    ∃ t, exec (.ldF x) s = .next t ∧
      t.i.toNat = Config.fontBase.val + 5 * ((s.reg x).toNat % 16) ∧ t.pc = s.pc + 2 ∧
      SameExcept [.i, .pc] s t

/-- R153: the three decimal digits at I, I + 1, I + 2, every other byte as before; MemoryBounds with nothing
written when one of the addresses exceeds 0xFFF. The canonical form of memory is an invariant
(`StepKeepsTheInvariant`). MemoryBounds is the spec's decision D4 (log 15), FAULT its D5 (log 9). -/
def Obligations.BcdStoresHundredsTensOnes : Prop :=
  ∀ (x : Nibble) (s : State), s.mem.wf = true → decode (0xF#4 ++ x ++ 0x33#8) = .ok (.ldB x) ∧
    (s.effAddr 2 > 0xFFF → exec (.ldB x) s = .next { s with fault := .memoryBounds }) ∧
    (s.effAddr 2 ≤ 0xFFF → ∃ t, exec (.ldB x) s = .next t ∧
      (t.mem.read (s.effAddr 0)).toNat = (s.reg x).toNat / 100 ∧
      (t.mem.read (s.effAddr 1)).toNat = (s.reg x).toNat / 10 % 10 ∧
      (t.mem.read (s.effAddr 2)).toNat = (s.reg x).toNat % 10 ∧
      (∀ a, a < s.effAddr 0 ∨ s.effAddr 2 < a → t.mem.read a = s.mem.read a) ∧
      t.pc = s.pc + 2 ∧ SameExcept [.mem, .pc] s t)

/-- R154: V0 to Vx at I to I + x, every other byte as before; MemoryBounds with nothing written when I + x
exceeds 0xFFF (the spec's decision D4, log 15; FAULT its D5, log 9). -/
def Obligations.StoreRegistersWritesV0ToVx : Prop :=
  ∀ (x : Nibble) (s : State), s.mem.wf = true → decode (0xF#4 ++ x ++ 0x55#8) = .ok (.storeRegs x) ∧
    (s.effAddr x.toNat > 0xFFF → exec (.storeRegs x) s = .next { s with fault := .memoryBounds }) ∧
    (s.effAddr x.toNat ≤ 0xFFF → ∃ t, exec (.storeRegs x) s = .next t ∧
      (∀ r : Nibble, r.toNat ≤ x.toNat → t.mem.read (s.effAddr r.toNat) = s.reg r) ∧
      (∀ a, a < s.effAddr 0 ∨ s.effAddr x.toNat < a → t.mem.read a = s.mem.read a) ∧
      t.pc = s.pc + 2 ∧ SameExcept [.mem, .pc] s t)

/-- R155: V0 to Vx from I to I + x, the registers above x and all of memory as before; MemoryBounds with no
register written when I + x exceeds 0xFFF (the spec's decision D4, log 15; FAULT its D5, log 9). -/
def Obligations.LoadRegistersReadsV0ToVx : Prop :=
  ∀ (x : Nibble) (s : State), decode (0xF#4 ++ x ++ 0x65#8) = .ok (.loadRegs x) ∧
    (s.effAddr x.toNat > 0xFFF → exec (.loadRegs x) s = .next { s with fault := .memoryBounds }) ∧
    (s.effAddr x.toNat ≤ 0xFFF → ∃ t, exec (.loadRegs x) s = .next t ∧
      (∀ r : Nibble, t.reg r = if r.toNat ≤ x.toNat then s.mem.read (s.effAddr r.toNat) else s.reg r) ∧
      t.pc = s.pc + 2 ∧ SameExcept [.regs, .pc] s t)

/-- R155, the round trip of the source (S11): storing V0 to Vx, changing any registers, then loading them restores
the values exactly, when neither I nor the memory changed in between. -/
def Obligations.StoreThenLoadRestoresTheRegisters : Prop :=
  ∀ (x : Nibble) (s t u : State), s.mem.wf = true → s.effAddr x.toNat ≤ 0xFFF →
    exec (.storeRegs x) s = .next t → u.i = t.i → u.mem = t.mem →
    ∃ w, exec (.loadRegs x) u = .next w ∧ ∀ r : Nibble, r.toNat ≤ x.toNat → w.reg r = s.reg r

/-- R53, which the spec marks as derived: what `Fx55` or `Fx33` stores to the two bytes after itself is what the
very next fetch reads. With x = 0 `Fx55` stores the first of the two only. -/
def Obligations.StoreIsSeenByTheNextFetch : Prop :=
  ∀ (x : Nibble) (s t : State), s.mem.wf = true → s.i.toNat = s.pc.toNat + 2 →
    (s.effAddr 1 ≤ 0xFFF → s.effAddr x.toNat ≤ 0xFFF → exec (.storeRegs x) s = .next t →
      fetch t = some (wordOfBytes (s.reg 0) (if x = 0 then s.mem.read (s.effAddr 1) else s.reg 1))) ∧
    (s.effAddr 2 ≤ 0xFFF → exec (.ldB x) s = .next t →
      ∃ w, fetch t = some w ∧ (highByte w).toNat = (s.reg x).toNat / 100 ∧
        (lowByte w).toNat = (s.reg x).toNat / 10 % 10)

/-! ### Framebuffer -/

/-- R170. -/
def Obligations.ClsClearsEveryPixel : Prop :=
  ∀ s : State, decode 0x00E0 = .ok .cls ∧
    ∃ t, exec .cls s = .next t ∧ (∀ x y, x < 64 → y < 32 → t.pixel x y = false) ∧ t.pc = s.pc + 2 ∧
      SameExcept [.fb, .pc] s t

/-- R171, R173, R174: each sprite bit is XORed onto its own pixel, every other pixel is as before, VF is 1
exactly when a sprite bit 1 fell on a set pixel. The wrap at the bottom edge is the spec's decision D13 (log
22), the order of the bits in a row is from general knowledge (D14, log 23), and that a coordinate in VF is read
before VF is written is its decision D12 (log 21). -/
def Obligations.DrawXorsTheSpriteAndReportsCollision : Prop :=
  ∀ (x y n : Nibble) (s : State), n.toNat = 0 ∨ s.effAddr (n.toNat - 1) ≤ 0xFFF →
    decode (0xD#4 ++ x ++ y ++ n) = .ok (.drw x y n) ∧
    ∃ t, exec (.drw x y n) s = .next t ∧
      (∀ r c, r < n.toNat → c < 8 →
        t.pixel (((s.reg x).toNat % 64 + c) % 64) (((s.reg y).toNat % 32 + r) % 32) =
          (s.pixel (((s.reg x).toNat % 64 + c) % 64) (((s.reg y).toNat % 32 + r) % 32) ^^
            (s.mem.read (s.effAddr r)).getLsbD (7 - c))) ∧
      (∀ px py, (∀ r c, r < n.toNat → c < 8 →
          ¬ (px = ((s.reg x).toNat % 64 + c) % 64 ∧ py = ((s.reg y).toNat % 32 + r) % 32)) →
        t.pixel px py = s.pixel px py) ∧
      (t.reg regF = 0 ∨ t.reg regF = 1) ∧
      (t.reg regF = 1 ↔ ∃ r c, r < n.toNat ∧ c < 8 ∧ (s.mem.read (s.effAddr r)).getLsbD (7 - c) = true ∧
        s.pixel (((s.reg x).toNat % 64 + c) % 64) (((s.reg y).toNat % 32 + r) % 32) = true) ∧
      t.pc = s.pc + 2 ∧ RegsSameExcept [regF] s t ∧ SameExcept [.fb, .regs, .pc] s t

/-- R171, R48: a sprite whose last byte lies beyond 0xFFF raises MemoryBounds before any pixel or VF is written
(the status is the spec's decision D4, log 15; FAULT its D5, log 9). -/
def Obligations.DrawBeyondMemoryHalts : Prop :=
  ∀ (x y n : Nibble) (s : State), n.toNat ≠ 0 → s.effAddr (n.toNat - 1) > 0xFFF →
    exec (.drw x y n) s = .next { s with fault := .memoryBounds }

/-- R171: drawing the same sprite twice at the same place restores the framebuffer. That the second draw reports
a collision exactly when a 1 bit of the sprite stands where the pixel was clear before the first is the model's
choice (log 32): it follows R171's pseudocode and R174 against R171's remark on the second draw. The wrap at the
bottom edge and the order of the bits are the spec's D13, D14 (logs 22, 23). -/
def Obligations.DrawTwiceRestoresTheFramebuffer : Prop :=
  ∀ (x y n : Nibble) (s t u : State), n.toNat = 0 ∨ s.effAddr (n.toNat - 1) ≤ 0xFFF →
    exec (.drw x y n) s = .next t → u.fb = t.fb → u.i = s.i → u.mem = s.mem →
    u.reg x = s.reg x → u.reg y = s.reg y →
    ∃ w, exec (.drw x y n) u = .next w ∧ (∀ px py, w.pixel px py = s.pixel px py) ∧
      (w.reg regF = 1 ↔ ∃ r c, r < n.toNat ∧ c < 8 ∧ (s.mem.read (s.effAddr r)).getLsbD (7 - c) = true ∧
        s.pixel (((s.reg x).toNat % 64 + c) % 64) (((s.reg y).toNat % 32 + r) % 32) = false)

/-! ### Keypad and timers -/

/-- R190, R191: the key named by the low nibble of Vx, as it is pressed now. That the low nibble alone names it is the
spec's decision D11 (log 20). -/
def Obligations.KeySkipsTestTheNamedKey : Prop :=
  ∀ (x : Nibble) (s : State),
    decode (0xE#4 ++ x ++ 0x9E#8) = .ok (.skp x) ∧ decode (0xE#4 ++ x ++ 0xA1#8) = .ok (.sknp x) ∧
    (∃ t, exec (.skp x) s = .next t ∧
      t.pc = (if s.keys.getLsbD ((s.reg x).toNat % 16) = true then s.pc + 4 else s.pc + 2) ∧
      SameExcept [.pc] s t) ∧
    (∃ t, exec (.sknp x) s = .next t ∧
      t.pc = (if s.keys.getLsbD ((s.reg x).toNat % 16) = false then s.pc + 4 else s.pc + 2) ∧
      SameExcept [.pc] s t)

/-- R193: the instruction enters the wait, writes no general register and leaves PC. That its tick looks at no
key, so that it does so whatever keys are pressed, is the spec's decision D9 (log 19). -/
def Obligations.WaitForKeyEntersSuspension : Prop :=
  ∀ (x : Nibble) (s : State), decode (0xF#4 ++ x ++ 0x0A#8) = .ok (.ldVxK x) ∧
    ∃ t, exec (.ldVxK x) s = .next t ∧ t.wait = true ∧ t.wreg = x ∧ SameExcept [.wait, .wreg] s t

/-- R82, R194: while no key is pressed a suspended machine's tick changes nothing and succeeds. -/
def Obligations.WaitPollWithoutKeyChangesNothing : Prop :=
  ∀ s : State, s.Waiting → s.keys = 0 → tick s = .next s ∧ reply .tick s = some .ok

/-- R82, R194, R195: the tick that sees a key writes a pressed key's index to the target, ends the wait and
advances PC by 2. That it fetches nothing is the spec's decision D8, that a key already held counts its D9 (log
19). Which key, when several are pressed, is the model's free value (D10, log 3); when one is pressed it is that
one. -/
def Obligations.WaitPollWithKeyCompletesTheWait : Prop :=
  ∀ s : State, s.Waiting → s.keys ≠ 0 →
    ∃ t, tick s = .next t ∧ reply .tick s = some .ok ∧ t.wait = false ∧ t.pc = s.pc + 2 ∧
      (t.reg s.wreg).toNat < 16 ∧ s.keys.getLsbD (t.reg s.wreg).toNat = true ∧
      (∀ k, k < 16 → (∀ j, s.keys.getLsbD j = decide (j = k)) → (t.reg s.wreg).toNat = k) ∧
      RegsSameExcept [s.wreg] s t ∧ SameExcept [.regs, .pc, .wait] s t

/-- R196, R197, R198: Vx and the timers; that TACC is not touched the spec marks as derived (R197). -/
def Obligations.TimerMovesCopyTheByte : Prop :=
  ∀ (x : Nibble) (s : State),
    decode (0xF#4 ++ x ++ 0x07#8) = .ok (.ldVxDt x) ∧ decode (0xF#4 ++ x ++ 0x15#8) = .ok (.ldDtVx x) ∧
    decode (0xF#4 ++ x ++ 0x18#8) = .ok (.ldStVx x) ∧
    (∃ t, exec (.ldVxDt x) s = .next t ∧ t.reg x = s.dt ∧ t.pc = s.pc + 2 ∧ RegsSameExcept [x] s t ∧
      SameExcept [.regs, .pc] s t) ∧
    (∃ t, exec (.ldDtVx x) s = .next t ∧ t.dt = s.reg x ∧ t.pc = s.pc + 2 ∧ SameExcept [.dt, .pc] s t) ∧
    (∃ t, exec (.ldStVx x) s = .next t ∧ t.st = s.reg x ∧ t.pc = s.pc + 2 ∧ SameExcept [.st, .pc] s t)

/-- R208: one pulse decrements both timers, floored at 0, and touches nothing else, in every run state (that a halted
machine gets it too is the spec's decision D18, log 28). -/
def Obligations.TimerPulseDecrementsBothTimers : Prop :=
  ∀ s : State, ∃ t, deliver .timerPulse s = .next t ∧ t.dt.toNat = s.dt.toNat - 1 ∧
    t.st.toNat = s.st.toNat - 1 ∧ SameExcept [.dt, .st] s t

/-- R209: `AdvanceTimers` adds to the accumulator, is exactly as many pulses as whole periods have elapsed, and
keeps the rest, which is below the period. The event is the spec's decision D18 (log 28); TIMER_PERIOD is the
model's free value (log 7). -/
def Obligations.AdvanceTimersIsThatManyPulses : Prop :=
  ∀ (elapsed : Nat) (s : State),
    deliver (.advanceTimers elapsed) s =
      .next { timerPulse^[(s.tacc + elapsed) / Config.timerPeriod] s with
        tacc := (s.tacc + elapsed) % Config.timerPeriod } ∧
    (s.tacc + elapsed) % Config.timerPeriod < Config.timerPeriod

/-! ### Rules about the whole machine -/

/-- R12, R14, R16 to R20, R24, R40, R89, R109: each instruction writes only the elements its rule names: I by `Annn`,
`Fx1E`, `Fx29`; the stack by `2nnn`, `00EE`; DT by `Fx15`, ST by `Fx18`; the framebuffer by `00E0`, `Dxyn`; memory by
`Fx33`, `Fx55`; KEYS and TACC by none. -/
def Obligations.InstructionsWriteOnlyTheirElements : Prop :=
  ∀ (i : Instr) (s t : State), exec i s = .next t → SameExcept (mayWrite i) s t

/-- R10, R11: each instruction writes only its destination registers, and VF as a flag is written by exactly `8xy4`,
`8xy5`, `8xy6`, `8xy7`, `8xyE`, `Dxyn`. -/
def Obligations.InstructionsWriteOnlyTheirRegisters : Prop :=
  ∀ (i : Instr) (s t : State), exec i s = .next t → RegsSameExcept (destRegs i) s t

/-- R21, R81, R210, R230: nothing but `Reset` leaves Halted (the spec's decision D5, log 9); the timers (its
D18, log 28) and the keys may still move. -/
def Obligations.OnlyResetLeavesHalted : Prop :=
  ∀ s t : State, s.Inv → s.Halted → s.host.head? ≠ some .reset → step s = .next t →
    t.Halted ∧ SameExcept [.dt, .st, .tacc, .keys, .host] s t

/-- R18, R89: `SetKeys` replaces KEYS and touches nothing else. -/
def Obligations.SetKeysReplacesTheKeys : Prop :=
  ∀ (k : Word) (s : State), ∃ t, deliver (.setKeys k) s = .next t ∧ t.keys = k ∧ SameExcept [.keys] s t

/-! ### Load and reset -/

/-- R263: in the load window an image that fits is copied verbatim to 0x200 on, and nothing else is touched, PC among it.
The window is the spec's decision D19 (log 12). -/
def Obligations.LoadCopiesTheImageToProgBase : Prop :=
  ∀ (bytes : List Byte) (s : State), s.loadOpen = true → s.mem.wf = true → bytes.length ≤ 0xE00 →
    ∃ t, deliver (.loadRom bytes) s = .next t ∧ reply (.loadRom bytes) s = some .ok ∧
      (∀ k (h : k < bytes.length), t.mem.read (0x200 + k) = bytes[k]) ∧
      (∀ a, a < 0x200 ∨ 0x200 + bytes.length ≤ a → t.mem.read a = s.mem.read a) ∧
      SameExcept [.mem] s t

/-- R263: the word form stores each word big-endian. The window is the spec's decision D19 (log 12). -/
def Obligations.LoadWordsStoresBigEndian : Prop :=
  ∀ (words : List Word) (s : State), s.loadOpen = true → s.mem.wf = true → 2 * words.length ≤ 0xE00 →
    ∃ t, deliver (.loadRomWords words) s = .next t ∧ reply (.loadRomWords words) s = some .ok ∧
      (∀ j (h : j < words.length),
        wordOfBytes (t.mem.read (0x200 + 2 * j)) (t.mem.read (0x200 + 2 * j + 1)) = words[j]) ∧
      (∀ a, a < 0x200 ∨ 0x200 + 2 * words.length ≤ a → t.mem.read a = s.mem.read a) ∧
      SameExcept [.mem] s t

/-- R225, R263: a too large image, of bytes or of words, changes nothing and is reported; a load of either form
after the first tick is refused (the spec's decision D19, log 12). -/
def Obligations.LoadFailsWhenTooLargeOrLate : Prop :=
  ∀ (bytes : List Byte) (words : List Word) (s : State),
    (s.loadOpen = true → 0xE00 < bytes.length →
      deliver (.loadRom bytes) s = .next s ∧ reply (.loadRom bytes) s = some .loadTooLarge) ∧
    (s.loadOpen = true → 0xE00 < 2 * words.length →
      deliver (.loadRomWords words) s = .next s ∧ reply (.loadRomWords words) s = some .loadTooLarge) ∧
    (s.loadOpen = false → deliver (.loadRom bytes) s = .refused .loadAfterFirstTick ∧
      deliver (.loadRomWords words) s = .refused .loadAfterFirstTick)

/-- R30, R260, R261: the values after reset. PC, SP empty and the clear framebuffer are the source's; the zeros
are the spec's decision D17 (log 8), FAULT its D5 (log 9), 0xFF its D2 (log 11), the font at FONT_BASE its D15.
FONT_BASE and FONT_ROM are the model's free values (logs 4, 5). -/
def Obligations.ResetLeavesTheListedValues : Prop :=
  State.reset.pc = 0x200 ∧ State.reset.sp = 0xFF ∧ (∀ x y, State.reset.pixel x y = false) ∧
  (∀ r, State.reset.reg r = 0) ∧ State.reset.i = 0 ∧ (∀ k : Fin 16, State.reset.stack.get k = 0) ∧
  State.reset.dt = 0 ∧ State.reset.st = 0 ∧ State.reset.keys = 0 ∧ State.reset.wait = false ∧
  State.reset.wreg = 0 ∧ State.reset.faultValue = 0 ∧ State.reset.ir = 0 ∧ State.reset.tacc = 0 ∧
  (∀ j, j < 80 → State.reset.mem.read (Config.fontBase.val + j) = Config.fontRom.toList.getD j 0) ∧
  (∀ a, a < Config.fontBase.val ∨ Config.fontBase.val + 80 ≤ a → State.reset.mem.read a = 0)

/-- R230, R260: `Reset` from any state, halted or not, gives the state after reset. That it leaves Halted is the
spec's decision D5 (log 9); that the host's schedule and the count of draws, both the model's own, stay is the
model's choice (log 30). -/
def Obligations.ResetRestoresEveryElement : Prop :=
  ∀ s : State, ∃ t, deliver .reset s = .next t ∧ t.runState = .running ∧
    SameExcept [.host, .draws] State.reset t ∧ t.host = s.host ∧ t.draws = s.draws

/-! ### Invariants -/

/-- R28: the state after reset meets the invariant. The stack entries that were never pushed, TACC and the rest
meet it by the zeros of the spec's decision D17 (log 8), SP by its D2 (log 11); that memory is canonical (log
31) and that the load window is open while running (log 12) are the model's own. -/
def Obligations.ResetMeetsTheInvariant : Prop := State.reset.Inv

/-- R28, R23, R24: every step, whatever event the host delivers, keeps the invariant: SP legal, PC at most
0x10FE, return addresses at most 0x1000, never suspended and halted at once, IR the `Fx0A` word while suspended,
TACC below the period. For entries never pushed it rests on the zeros of D17 (log 8), for IR on D6 (log 17);
that memory is canonical (log 31) and that the machine runs while the load window is open (log 12) are the
model's own. -/
def Obligations.StepKeepsTheInvariant : Prop :=
  ∀ s t : State, s.Inv → step s = .next t → t.Inv

/-- From a state that meets the invariant (R28) no step faults, every tick answers a next state, and the only
refused event is a load after the first tick. Both stops are the model's choice: the one fault it has is that of
an illegal SP (log 11), the refusal follows the spec's decision D19 (log 12). -/
def Obligations.StepStopsOnlyOnALateLoad : Prop :=
  ∀ s : State, s.Inv → (∃ t, tick s = .next t) ∧ (∀ f, step s ≠ .fault f) ∧
    (∀ r, step s = .refused r → r = .loadAfterFirstTick ∧ s.loadOpen = false ∧
      ((∃ bytes, s.host.head? = some (.loadRom bytes)) ∨
        ∃ words, s.host.head? = some (.loadRomWords words)))

/-! ### Accessors and the end of a run -/

/-- R31, R211: the accessors that are more than a field. The stack top is the top entry where there is one, a memory cell is
read inside the bounds and refused beyond them, every pixel and every register is its element, and the tone is on
exactly when ST is not 0. FAULT's number is the spec's addition (D5, log 9), the values of SP its D2 (log 11). -/
def Obligations.AccessorsReadTheState : Prop :=
  ∀ s : State,
    (∀ (k : Fin 16) (reading : Nat), s.sp.toNat = k.val → s.stackTop reading = s.stack.get k) ∧
    (s.SpLegal → s.depth = (s.sp.toNat + 1) % 256 ∧ s.depth ≤ 16 ∧ (s.depth = 0 ↔ s.sp = 0xFF)) ∧
    (∀ a, a ≤ 0xFFF → s.memoryCell a = some (s.mem.read a)) ∧ (∀ a, 0xFFF < a → s.memoryCell a = none) ∧
    (∀ r : Fin 16, s.reg (BitVec.ofFin r) = s.v.get r) ∧ framebufferDimensions = (64, 32) ∧
    (∀ (px : Nat) (y : Fin 32), s.pixel px y.val = (s.fb.get y).getLsbD px) ∧
    (s.faultValue = 0 ↔ ¬ s.Halted) ∧ (s.tone = true ↔ 0 < s.st.toNat)

/-- R271, R101: a machine at a jump to itself stays there for ever, whatever the host does short of a `Reset` or a load:
after any number of steps only the timers, the keys, IR and the model's own schedule and load window may have changed.
That this is the end of a run is the model's choice (log 33); IR is the spec's decision D6 (log 17). -/
def Obligations.SelfJumpIsKeptForEver : Prop :=
  ∀ (k : Nat) (s : State), s.AtSelfJump →
    (∀ e ∈ s.host, e = .tick ∨ e = .timerPulse ∨ (∃ n, e = .advanceTimers n) ∨ ∃ keys, e = .setKeys keys) →
    ∃ t, run k s = .next t ∧ t.AtSelfJump ∧
      SameExcept [.dt, .st, .tacc, .keys, .ir, .host, .loadOpen] s t

/-- R271, R229: a run that has reached a fatal status never ends well: without a `Reset` no later state succeeds. That a
halted machine stays so is the spec's decision D5 (log 9). -/
def Obligations.HaltedRunNeverSucceeds : Prop :=
  ∀ (k : Nat) (s : State), s.Halted → (∀ e ∈ s.host, e ≠ .reset) → ¬ Succeeds (run k s)
end

