-- ==== Sys2Proof/Laws/Decode.lean ====
section
/-! SUPPORT. The fields of a packed word (`30_encoding.md` R61, R62), for each format. -/

namespace Sys2Proof

/-- Bit i of a word in format NNN. -/
theorem getLsbD_packNnn (f : Nibble) (nnn : Addr12) (i : Nat) :
    (packNnn f nnn).getLsbD i = if i < 12 then nnn.getLsbD i else f.getLsbD (i - 12) :=
  BitVec.getLsbD_append (x := f) (y := nnn)

/-- Bit i of a word in format XKK. -/
theorem getLsbD_packXkk (f x : Nibble) (kk : Byte) (i : Nat) :
    (packXkk f x kk).getLsbD i =
      if i < 8 then kk.getLsbD i else if i - 8 < 4 then x.getLsbD (i - 8) else f.getLsbD (i - 8 - 4) := by
  refine (BitVec.getLsbD_append (x := f ++ x) (y := kk)).trans ?_
  rw [BitVec.getLsbD_append]

/-- Bit i of a word in format XYN. -/
theorem getLsbD_packXyn (f x y n : Nibble) (i : Nat) :
    (packXyn f x y n).getLsbD i =
      if i < 4 then n.getLsbD i else if i - 4 < 4 then y.getLsbD (i - 4)
      else if i - 4 - 4 < 4 then x.getLsbD (i - 4 - 4) else f.getLsbD (i - 4 - 4 - 4) := by
  refine (BitVec.getLsbD_append (x := f ++ x ++ y) (y := n)).trans ?_
  rw [BitVec.getLsbD_append, BitVec.getLsbD_append]

/-- Bit i of the word of two bytes (R43). -/
theorem getLsbD_wordOfBytes (hi lo : Byte) (i : Nat) :
    (wordOfBytes hi lo).getLsbD i = if i < 8 then lo.getLsbD i else hi.getLsbD (i - 8) :=
  BitVec.getLsbD_append (x := hi) (y := lo)

section Nnn
variable (f : Nibble) (nnn : Addr12)

@[simp] theorem fieldFamily_packNnn : fieldFamily (packNnn f nnn) = f := by
  apply BitVec.eq_of_getLsbD_eq; intro i hi
  simp [fieldFamily, getLsbD_packNnn, hi]

@[simp] theorem fieldNnn_packNnn : fieldNnn (packNnn f nnn) = nnn := by
  apply BitVec.eq_of_getLsbD_eq; intro i hi
  simp [fieldNnn, getLsbD_packNnn, hi]

end Nnn

section Xkk
variable (f x : Nibble) (kk : Byte)

@[simp] theorem fieldFamily_packXkk : fieldFamily (packXkk f x kk) = f := by
  apply BitVec.eq_of_getLsbD_eq; intro i hi
  have h1 : ¬ 12 + i < 8 := by omega
  have h2 : ¬ 12 + i - 8 < 4 := by omega
  have h3 : 12 + i - 8 - 4 = i := by omega
  simp [fieldFamily, getLsbD_packXkk, hi, h1, h2, h3]

@[simp] theorem fieldX_packXkk : fieldX (packXkk f x kk) = x := by
  apply BitVec.eq_of_getLsbD_eq; intro i hi
  simp [fieldX, getLsbD_packXkk, hi]

@[simp] theorem fieldKk_packXkk : fieldKk (packXkk f x kk) = kk := by
  apply BitVec.eq_of_getLsbD_eq; intro i hi
  simp [fieldKk, getLsbD_packXkk, hi]

end Xkk

section Xyn
variable (f x y n : Nibble)

@[simp] theorem fieldFamily_packXyn : fieldFamily (packXyn f x y n) = f := by
  apply BitVec.eq_of_getLsbD_eq; intro i hi
  have h1 : ¬ 12 + i < 4 := by omega
  have h2 : ¬ 12 + i - 4 < 4 := by omega
  have h3 : ¬ 12 + i - 4 - 4 < 4 := by omega
  have h4 : 12 + i - 4 - 4 - 4 = i := by omega
  simp [fieldFamily, getLsbD_packXyn, hi, h1, h2, h3, h4]

@[simp] theorem fieldX_packXyn : fieldX (packXyn f x y n) = x := by
  apply BitVec.eq_of_getLsbD_eq; intro i hi
  have h1 : ¬ 8 + i < 4 := by omega
  have h2 : ¬ 8 + i - 4 < 4 := by omega
  have h3 : 8 + i - 4 - 4 = i := by omega
  simp [fieldX, getLsbD_packXyn, hi, h1, h2, h3]

@[simp] theorem fieldY_packXyn : fieldY (packXyn f x y n) = y := by
  apply BitVec.eq_of_getLsbD_eq; intro i hi
  simp [fieldY, getLsbD_packXyn, hi]

@[simp] theorem fieldN_packXyn : fieldN (packXyn f x y n) = n := by
  apply BitVec.eq_of_getLsbD_eq; intro i hi
  simp [fieldN, getLsbD_packXyn, hi]

end Xyn

/-- The two bytes of a word put together again (R43). -/
@[simp] theorem wordOfBytes_high_low (w : Word) : wordOfBytes (highByte w) (lowByte w) = w := by
  apply BitVec.eq_of_getLsbD_eq; intro i hi
  rw [getLsbD_wordOfBytes]
  split
  · next h => simp [lowByte, h]
  · next h =>
    have e : 8 + (i - 8) = i := by omega
    have h' : i - 8 < 8 := by omega
    simp [highByte, e, h']

@[simp] theorem highByte_wordOfBytes (hi lo : Byte) : highByte (wordOfBytes hi lo) = hi := by
  apply BitVec.eq_of_getLsbD_eq; intro i h
  simp [highByte, getLsbD_wordOfBytes, h]

@[simp] theorem lowByte_wordOfBytes (hi lo : Byte) : lowByte (wordOfBytes hi lo) = lo := by
  apply BitVec.eq_of_getLsbD_eq; intro i h
  simp [lowByte, getLsbD_wordOfBytes, h]

end Sys2Proof
end

