-- ==== Sys2Proof/Laws/Memory.lean ====
section
/-! SUPPORT. The laws of memory: a read after a write, and that every memory operation keeps the canonical
form. -/

namespace Sys2Proof.Machine

@[simp] theorem Memory.read_nil (a : Nat) : Memory.read [] a = Memory.resetByte a := rfl

@[simp] theorem Memory.read_cons (k : Nat) (w : Byte) (rest : Memory) (a : Nat) :
    Memory.read ((k, w) :: rest) a = if k = a then w else Memory.read rest a := rfl

/-- Zero from PROG_BASE on, so that a read there needs no value of FONT_BASE. -/
theorem Memory.resetByte_program {a : Nat} (h : 0x200 ≤ a) : Memory.resetByte a = 0 := by
  simp [Memory.resetByte, h]

/-- The font at FONT_BASE (R261). -/
theorem Memory.resetByte_font {j : Nat} (h : j < 80) :
    Memory.resetByte (Config.fontBase.val + j) = Config.fontRom[j] := by
  have hb := Config.fontBase.isLt
  have h1 : ¬ 0x200 ≤ Config.fontBase.val + j := by omega
  simp [Memory.resetByte, h1, List.getD_eq_getElem?_getD, h]

/-- Zero outside the font (R261). -/
theorem Memory.resetByte_outside_font {a : Nat} (h : a < Config.fontBase.val ∨ Config.fontBase.val + 80 ≤ a) :
    Memory.resetByte a = 0 := by
  simp only [Memory.resetByte]
  split
  · rfl
  split
  · rw [List.getD_eq_default]
    rw [Vector.length_toList]
    omega
  · rfl

@[simp] theorem Memory.wfFrom_cons (lo k : Nat) (w : Byte) (rest : Memory) :
    Memory.wfFrom lo ((k, w) :: rest) = true ↔
      lo ≤ k ∧ k ≤ 0xFFF ∧ w ≠ Memory.resetByte k ∧ Memory.wfFrom (k + 1) rest = true := by
  simp [Memory.wfFrom, and_assoc]

theorem Memory.wfFrom_weaken {lo lo' : Nat} (h : lo' ≤ lo) {m : Memory}
    (hm : Memory.wfFrom lo m = true) : Memory.wfFrom lo' m = true := by
  cases m with
  | nil => rfl
  | cons c rest =>
    obtain ⟨k, w⟩ := c
    rw [Memory.wfFrom_cons] at hm ⊢
    exact ⟨h.trans hm.1, hm.2⟩

/-- Below the first listed address everything is at its reset content. -/
theorem Memory.read_below {lo a : Nat} {m : Memory} (hm : Memory.wfFrom lo m = true) (h : a < lo) :
    m.read a = Memory.resetByte a := by
  induction m generalizing lo with
  | nil => rfl
  | cons c rest ih =>
    obtain ⟨k, w⟩ := c
    rw [Memory.wfFrom_cons] at hm
    have hk : k ≠ a := by omega
    rw [Memory.read_cons, if_neg hk]
    exact ih hm.2.2.2 (by omega)

theorem Memory.read_write_from {lo : Nat} {m : Memory} (hm : Memory.wfFrom lo m = true) (a : Nat) (b : Byte)
    (a' : Nat) : (m.write a b).read a' = if a' = a then b else m.read a' := by
  induction m generalizing lo with
  | nil =>
    simp only [Memory.write]
    split
    · next h => simp only [Memory.read_nil]; split
                · next e => rw [e, h]
                · rfl
    · simp only [Memory.read_cons, Memory.read_nil, eq_comm]
  | cons c rest ih =>
    obtain ⟨k, w⟩ := c
    rw [Memory.wfFrom_cons] at hm
    have ih := ih hm.2.2.2
    simp only [Memory.write]
    by_cases hlt : k < a
    · rw [if_pos hlt, Memory.read_cons, ih, Memory.read_cons]
      by_cases e : k = a'
      · subst e; simp [Nat.ne_of_lt hlt]
      · simp [e]
    · rw [if_neg hlt]
      have hbelow : a' = a → Memory.read rest a' = Memory.resetByte a' := fun e =>
        Memory.read_below hm.2.2.2 (by omega)
      by_cases hb : b = Memory.resetByte a
      · rw [if_pos hb]
        by_cases e : a' = a
        · subst e
          by_cases hk : k = a'
          · simp [hk, hb, hbelow rfl]
          · simp [hk, hb, hbelow rfl]
        · by_cases hk : k = a
          · have : k ≠ a' := fun e' => e (by omega)
            rw [if_pos hk, if_neg e, Memory.read_cons, if_neg this]
          · simp [hk, e]
      · rw [if_neg hb, Memory.read_cons]
        by_cases e : a' = a
        · simp [e]
        · have e' : ¬ a = a' := fun h => e h.symm
          rw [if_neg e', if_neg e]
          by_cases hk : k = a
          · have : k ≠ a' := fun h => e (by omega)
            rw [if_pos hk, Memory.read_cons, if_neg this]
          · rw [if_neg hk]

/-- A read after a write: the written value there, and every other byte as before. -/
theorem Memory.read_write {m : Memory} (hm : m.wf = true) (a : Nat) (b : Byte) (a' : Nat) :
    (m.write a b).read a' = if a' = a then b else m.read a' := Memory.read_write_from hm a b a'

theorem Memory.write_wfFrom {lo : Nat} {m : Memory} (hm : Memory.wfFrom lo m = true) {a : Nat} (b : Byte)
    (hlo : lo ≤ a) (ha : a ≤ 0xFFF) : Memory.wfFrom lo (m.write a b) = true := by
  induction m generalizing lo with
  | nil =>
    simp only [Memory.write]
    split
    · rfl
    · next h => exact (Memory.wfFrom_cons ..).2 ⟨hlo, ha, h, rfl⟩
  | cons c rest ih =>
    obtain ⟨k, w⟩ := c
    have hm' := (Memory.wfFrom_cons ..).1 hm
    simp only [Memory.write]
    by_cases hlt : k < a
    · rw [if_pos hlt]
      exact (Memory.wfFrom_cons ..).2 ⟨hm'.1, hm'.2.1, hm'.2.2.1, ih hm'.2.2.2 hlt⟩
    · rw [if_neg hlt]
      by_cases hk : k = a
      · subst hk
        rw [if_pos rfl]
        split
        · exact Memory.wfFrom_weaken (by omega) hm'.2.2.2
        · next hb => exact (Memory.wfFrom_cons ..).2 ⟨hlo, ha, hb, hm'.2.2.2⟩
      · rw [if_neg hk]
        split
        · exact hm
        · next hb =>
          exact (Memory.wfFrom_cons ..).2
            ⟨hlo, ha, hb, (Memory.wfFrom_cons ..).2 ⟨by omega, hm'.2⟩⟩

/-- A write inside the address space keeps the canonical form. -/
theorem Memory.write_wf {m : Memory} (hm : m.wf = true) {a : Nat} (b : Byte) (ha : a ≤ 0xFFF) :
    (m.write a b).wf = true := Memory.write_wfFrom hm b (Nat.zero_le _) ha

/-- A store of several bytes inside the address space keeps the canonical form. -/
theorem Memory.writeBytes_wf {m : Memory} (hm : m.wf = true) {a : Nat} {bs : List Byte}
    (h : a + bs.length ≤ 0x1000) : (m.writeBytes a bs).wf = true := by
  induction bs generalizing m a with
  | nil => exact hm
  | cons b bs ih =>
    simp only [List.length_cons] at h
    exact ih (Memory.write_wf hm b (by omega)) (by omega)

/-- A read after a store of several bytes inside the address space. -/
theorem Memory.read_writeBytes {m : Memory} (hm : m.wf = true) {a : Nat} {bs : List Byte}
    (h : a + bs.length ≤ 0x1000) (a' : Nat) :
    (m.writeBytes a bs).read a' =
      if a ≤ a' ∧ a' < a + bs.length then bs.getD (a' - a) 0 else m.read a' := by
  induction bs generalizing m a with
  | nil => simp [Memory.writeBytes]
  | cons b bs ih =>
    simp only [List.length_cons] at h ⊢
    rw [Memory.writeBytes, ih (Memory.write_wf hm b (by omega)) (by omega), Memory.read_write hm]
    by_cases h1 : a' = a
    · subst h1
      rw [if_neg (by omega), if_pos rfl, if_pos (by omega)]
      simp
    · by_cases h2 : a + 1 ≤ a' ∧ a' < a + 1 + bs.length
      · rw [if_pos h2, if_pos (by omega)]
        obtain ⟨j, hj⟩ : ∃ j, a' = a + 1 + j := ⟨a' - (a + 1), by omega⟩
        subst hj
        have e1 : a + 1 + j - (a + 1) = j := by omega
        have e2 : a + 1 + j - a = j + 1 := by omega
        rw [e1, e2, List.getD_cons_succ]
      · rw [if_neg h2, if_neg h1, if_neg (by omega)]

@[simp] theorem Memory.readBytes_length (m : Memory) (a n : Nat) : (m.readBytes a n).length = n := by
  induction n generalizing a with
  | zero => rfl
  | succ n ih => simp [Memory.readBytes, ih]

/-- The k-th byte read is the byte at `a + k`. -/
theorem Memory.getD_readBytes (m : Memory) (a n k : Nat) (hk : k < n) :
    (m.readBytes a n).getD k 0 = m.read (a + k) := by
  induction n generalizing a k with
  | zero => omega
  | succ n ih =>
    cases k with
    | zero => simp [Memory.readBytes]
    | succ k =>
      rw [Memory.readBytes, List.getD_cons_succ, ih (a + 1) k (by omega), Nat.add_right_comm, Nat.add_assoc]

/-- The bounds check of `20_memory.md` R48, in arithmetic. -/
theorem inBounds_iff (base len : Nat) : inBounds base len = true ↔ len = 0 ∨ base + len ≤ 0x1000 := by
  simp [inBounds]

end Sys2Proof.Machine
end

