-- ==== Sys2Proof/Laws/State.lean ====
section
/-! SUPPORT. One lemma per field per named update, true by rfl, so that no later proof unfolds a record
update. -/

namespace Sys2Proof.Machine

variable (s : State)

/-! ### setReg -/

@[simp] theorem State.setReg_i (r : Nibble) (b : Byte) : (s.setReg r b).i = s.i := rfl
@[simp] theorem State.setReg_pc (r : Nibble) (b : Byte) : (s.setReg r b).pc = s.pc := rfl
@[simp] theorem State.setReg_stack (r : Nibble) (b : Byte) : (s.setReg r b).stack = s.stack := rfl
@[simp] theorem State.setReg_sp (r : Nibble) (b : Byte) : (s.setReg r b).sp = s.sp := rfl
@[simp] theorem State.setReg_dt (r : Nibble) (b : Byte) : (s.setReg r b).dt = s.dt := rfl
@[simp] theorem State.setReg_st (r : Nibble) (b : Byte) : (s.setReg r b).st = s.st := rfl
@[simp] theorem State.setReg_keys (r : Nibble) (b : Byte) : (s.setReg r b).keys = s.keys := rfl
@[simp] theorem State.setReg_fb (r : Nibble) (b : Byte) : (s.setReg r b).fb = s.fb := rfl
@[simp] theorem State.setReg_wait (r : Nibble) (b : Byte) : (s.setReg r b).wait = s.wait := rfl
@[simp] theorem State.setReg_wreg (r : Nibble) (b : Byte) : (s.setReg r b).wreg = s.wreg := rfl
@[simp] theorem State.setReg_fault (r : Nibble) (b : Byte) : (s.setReg r b).fault = s.fault := rfl
@[simp] theorem State.setReg_ir (r : Nibble) (b : Byte) : (s.setReg r b).ir = s.ir := rfl
@[simp] theorem State.setReg_tacc (r : Nibble) (b : Byte) : (s.setReg r b).tacc = s.tacc := rfl
@[simp] theorem State.setReg_mem (r : Nibble) (b : Byte) : (s.setReg r b).mem = s.mem := rfl
@[simp] theorem State.setReg_host (r : Nibble) (b : Byte) : (s.setReg r b).host = s.host := rfl
@[simp] theorem State.setReg_draws (r : Nibble) (b : Byte) : (s.setReg r b).draws = s.draws := rfl
@[simp] theorem State.setReg_loadOpen (r : Nibble) (b : Byte) : (s.setReg r b).loadOpen = s.loadOpen := rfl

/-! ### setPc -/

@[simp] theorem State.setPc_v (p : Word) : (s.setPc p).v = s.v := rfl
@[simp] theorem State.setPc_i (p : Word) : (s.setPc p).i = s.i := rfl
@[simp] theorem State.setPc_pc (p : Word) : (s.setPc p).pc = p := rfl
@[simp] theorem State.setPc_stack (p : Word) : (s.setPc p).stack = s.stack := rfl
@[simp] theorem State.setPc_sp (p : Word) : (s.setPc p).sp = s.sp := rfl
@[simp] theorem State.setPc_dt (p : Word) : (s.setPc p).dt = s.dt := rfl
@[simp] theorem State.setPc_st (p : Word) : (s.setPc p).st = s.st := rfl
@[simp] theorem State.setPc_keys (p : Word) : (s.setPc p).keys = s.keys := rfl
@[simp] theorem State.setPc_fb (p : Word) : (s.setPc p).fb = s.fb := rfl
@[simp] theorem State.setPc_wait (p : Word) : (s.setPc p).wait = s.wait := rfl
@[simp] theorem State.setPc_wreg (p : Word) : (s.setPc p).wreg = s.wreg := rfl
@[simp] theorem State.setPc_fault (p : Word) : (s.setPc p).fault = s.fault := rfl
@[simp] theorem State.setPc_ir (p : Word) : (s.setPc p).ir = s.ir := rfl
@[simp] theorem State.setPc_tacc (p : Word) : (s.setPc p).tacc = s.tacc := rfl
@[simp] theorem State.setPc_mem (p : Word) : (s.setPc p).mem = s.mem := rfl
@[simp] theorem State.setPc_host (p : Word) : (s.setPc p).host = s.host := rfl
@[simp] theorem State.setPc_draws (p : Word) : (s.setPc p).draws = s.draws := rfl
@[simp] theorem State.setPc_loadOpen (p : Word) : (s.setPc p).loadOpen = s.loadOpen := rfl
@[simp] theorem State.reg_setPc (p : Word) (q : Nibble) : (s.setPc p).reg q = s.reg q := rfl

/-! ### advance -/

@[simp] theorem State.advance_v : (s.advance).v = s.v := rfl
@[simp] theorem State.advance_i : (s.advance).i = s.i := rfl
@[simp] theorem State.advance_pc : (s.advance).pc = s.pc + 2 := rfl
@[simp] theorem State.advance_stack : (s.advance).stack = s.stack := rfl
@[simp] theorem State.advance_sp : (s.advance).sp = s.sp := rfl
@[simp] theorem State.advance_dt : (s.advance).dt = s.dt := rfl
@[simp] theorem State.advance_st : (s.advance).st = s.st := rfl
@[simp] theorem State.advance_keys : (s.advance).keys = s.keys := rfl
@[simp] theorem State.advance_fb : (s.advance).fb = s.fb := rfl
@[simp] theorem State.advance_wait : (s.advance).wait = s.wait := rfl
@[simp] theorem State.advance_wreg : (s.advance).wreg = s.wreg := rfl
@[simp] theorem State.advance_fault : (s.advance).fault = s.fault := rfl
@[simp] theorem State.advance_ir : (s.advance).ir = s.ir := rfl
@[simp] theorem State.advance_tacc : (s.advance).tacc = s.tacc := rfl
@[simp] theorem State.advance_mem : (s.advance).mem = s.mem := rfl
@[simp] theorem State.advance_host : (s.advance).host = s.host := rfl
@[simp] theorem State.advance_draws : (s.advance).draws = s.draws := rfl
@[simp] theorem State.advance_loadOpen : (s.advance).loadOpen = s.loadOpen := rfl
@[simp] theorem State.reg_advance (q : Nibble) : (s.advance).reg q = s.reg q := rfl

/-! ### skipIf -/

@[simp] theorem State.skipIf_v (c : Bool) : (s.skipIf c).v = s.v := rfl
@[simp] theorem State.skipIf_i (c : Bool) : (s.skipIf c).i = s.i := rfl
@[simp] theorem State.skipIf_pc (c : Bool) : (s.skipIf c).pc = if c then s.pc + 4 else s.pc + 2 := rfl
@[simp] theorem State.skipIf_stack (c : Bool) : (s.skipIf c).stack = s.stack := rfl
@[simp] theorem State.skipIf_sp (c : Bool) : (s.skipIf c).sp = s.sp := rfl
@[simp] theorem State.skipIf_dt (c : Bool) : (s.skipIf c).dt = s.dt := rfl
@[simp] theorem State.skipIf_st (c : Bool) : (s.skipIf c).st = s.st := rfl
@[simp] theorem State.skipIf_keys (c : Bool) : (s.skipIf c).keys = s.keys := rfl
@[simp] theorem State.skipIf_fb (c : Bool) : (s.skipIf c).fb = s.fb := rfl
@[simp] theorem State.skipIf_wait (c : Bool) : (s.skipIf c).wait = s.wait := rfl
@[simp] theorem State.skipIf_wreg (c : Bool) : (s.skipIf c).wreg = s.wreg := rfl
@[simp] theorem State.skipIf_fault (c : Bool) : (s.skipIf c).fault = s.fault := rfl
@[simp] theorem State.skipIf_ir (c : Bool) : (s.skipIf c).ir = s.ir := rfl
@[simp] theorem State.skipIf_tacc (c : Bool) : (s.skipIf c).tacc = s.tacc := rfl
@[simp] theorem State.skipIf_mem (c : Bool) : (s.skipIf c).mem = s.mem := rfl
@[simp] theorem State.skipIf_host (c : Bool) : (s.skipIf c).host = s.host := rfl
@[simp] theorem State.skipIf_draws (c : Bool) : (s.skipIf c).draws = s.draws := rfl
@[simp] theorem State.skipIf_loadOpen (c : Bool) : (s.skipIf c).loadOpen = s.loadOpen := rfl
@[simp] theorem State.reg_skipIf (c : Bool) (q : Nibble) : (s.skipIf c).reg q = s.reg q := rfl

/-! ### setI -/

@[simp] theorem State.setI_v (w : Word) : (s.setI w).v = s.v := rfl
@[simp] theorem State.setI_i (w : Word) : (s.setI w).i = w := rfl
@[simp] theorem State.setI_pc (w : Word) : (s.setI w).pc = s.pc := rfl
@[simp] theorem State.setI_stack (w : Word) : (s.setI w).stack = s.stack := rfl
@[simp] theorem State.setI_sp (w : Word) : (s.setI w).sp = s.sp := rfl
@[simp] theorem State.setI_dt (w : Word) : (s.setI w).dt = s.dt := rfl
@[simp] theorem State.setI_st (w : Word) : (s.setI w).st = s.st := rfl
@[simp] theorem State.setI_keys (w : Word) : (s.setI w).keys = s.keys := rfl
@[simp] theorem State.setI_fb (w : Word) : (s.setI w).fb = s.fb := rfl
@[simp] theorem State.setI_wait (w : Word) : (s.setI w).wait = s.wait := rfl
@[simp] theorem State.setI_wreg (w : Word) : (s.setI w).wreg = s.wreg := rfl
@[simp] theorem State.setI_fault (w : Word) : (s.setI w).fault = s.fault := rfl
@[simp] theorem State.setI_ir (w : Word) : (s.setI w).ir = s.ir := rfl
@[simp] theorem State.setI_tacc (w : Word) : (s.setI w).tacc = s.tacc := rfl
@[simp] theorem State.setI_mem (w : Word) : (s.setI w).mem = s.mem := rfl
@[simp] theorem State.setI_host (w : Word) : (s.setI w).host = s.host := rfl
@[simp] theorem State.setI_draws (w : Word) : (s.setI w).draws = s.draws := rfl
@[simp] theorem State.setI_loadOpen (w : Word) : (s.setI w).loadOpen = s.loadOpen := rfl
@[simp] theorem State.reg_setI (w : Word) (q : Nibble) : (s.setI w).reg q = s.reg q := rfl

/-! ### storeBytes -/

@[simp] theorem State.storeBytes_v (a : Nat) (bs : List Byte) : (s.storeBytes a bs).v = s.v := rfl
@[simp] theorem State.storeBytes_i (a : Nat) (bs : List Byte) : (s.storeBytes a bs).i = s.i := rfl
@[simp] theorem State.storeBytes_pc (a : Nat) (bs : List Byte) : (s.storeBytes a bs).pc = s.pc := rfl
@[simp] theorem State.storeBytes_stack (a : Nat) (bs : List Byte) : (s.storeBytes a bs).stack = s.stack := rfl
@[simp] theorem State.storeBytes_sp (a : Nat) (bs : List Byte) : (s.storeBytes a bs).sp = s.sp := rfl
@[simp] theorem State.storeBytes_dt (a : Nat) (bs : List Byte) : (s.storeBytes a bs).dt = s.dt := rfl
@[simp] theorem State.storeBytes_st (a : Nat) (bs : List Byte) : (s.storeBytes a bs).st = s.st := rfl
@[simp] theorem State.storeBytes_keys (a : Nat) (bs : List Byte) : (s.storeBytes a bs).keys = s.keys := rfl
@[simp] theorem State.storeBytes_fb (a : Nat) (bs : List Byte) : (s.storeBytes a bs).fb = s.fb := rfl
@[simp] theorem State.storeBytes_wait (a : Nat) (bs : List Byte) : (s.storeBytes a bs).wait = s.wait := rfl
@[simp] theorem State.storeBytes_wreg (a : Nat) (bs : List Byte) : (s.storeBytes a bs).wreg = s.wreg := rfl
@[simp] theorem State.storeBytes_fault (a : Nat) (bs : List Byte) : (s.storeBytes a bs).fault = s.fault := rfl
@[simp] theorem State.storeBytes_ir (a : Nat) (bs : List Byte) : (s.storeBytes a bs).ir = s.ir := rfl
@[simp] theorem State.storeBytes_tacc (a : Nat) (bs : List Byte) : (s.storeBytes a bs).tacc = s.tacc := rfl
@[simp] theorem State.storeBytes_mem (a : Nat) (bs : List Byte) : (s.storeBytes a bs).mem = s.mem.writeBytes a bs := rfl
@[simp] theorem State.storeBytes_host (a : Nat) (bs : List Byte) : (s.storeBytes a bs).host = s.host := rfl
@[simp] theorem State.storeBytes_draws (a : Nat) (bs : List Byte) : (s.storeBytes a bs).draws = s.draws := rfl
@[simp] theorem State.storeBytes_loadOpen (a : Nat) (bs : List Byte) : (s.storeBytes a bs).loadOpen = s.loadOpen := rfl
@[simp] theorem State.reg_storeBytes (a : Nat) (bs : List Byte) (q : Nibble) : (s.storeBytes a bs).reg q = s.reg q := rfl

/-! ### writeResultAndFlag -/

@[simp] theorem State.writeResultAndFlag_i (x : Nibble) (b f : Byte) : (s.writeResultAndFlag x b f).i = s.i := rfl
@[simp] theorem State.writeResultAndFlag_pc (x : Nibble) (b f : Byte) : (s.writeResultAndFlag x b f).pc = s.pc := rfl
@[simp] theorem State.writeResultAndFlag_stack (x : Nibble) (b f : Byte) : (s.writeResultAndFlag x b f).stack = s.stack := rfl
@[simp] theorem State.writeResultAndFlag_sp (x : Nibble) (b f : Byte) : (s.writeResultAndFlag x b f).sp = s.sp := rfl
@[simp] theorem State.writeResultAndFlag_dt (x : Nibble) (b f : Byte) : (s.writeResultAndFlag x b f).dt = s.dt := rfl
@[simp] theorem State.writeResultAndFlag_st (x : Nibble) (b f : Byte) : (s.writeResultAndFlag x b f).st = s.st := rfl
@[simp] theorem State.writeResultAndFlag_keys (x : Nibble) (b f : Byte) : (s.writeResultAndFlag x b f).keys = s.keys := rfl
@[simp] theorem State.writeResultAndFlag_fb (x : Nibble) (b f : Byte) : (s.writeResultAndFlag x b f).fb = s.fb := rfl
@[simp] theorem State.writeResultAndFlag_wait (x : Nibble) (b f : Byte) : (s.writeResultAndFlag x b f).wait = s.wait := rfl
@[simp] theorem State.writeResultAndFlag_wreg (x : Nibble) (b f : Byte) : (s.writeResultAndFlag x b f).wreg = s.wreg := rfl
@[simp] theorem State.writeResultAndFlag_fault (x : Nibble) (b f : Byte) : (s.writeResultAndFlag x b f).fault = s.fault := rfl
@[simp] theorem State.writeResultAndFlag_ir (x : Nibble) (b f : Byte) : (s.writeResultAndFlag x b f).ir = s.ir := rfl
@[simp] theorem State.writeResultAndFlag_tacc (x : Nibble) (b f : Byte) : (s.writeResultAndFlag x b f).tacc = s.tacc := rfl
@[simp] theorem State.writeResultAndFlag_mem (x : Nibble) (b f : Byte) : (s.writeResultAndFlag x b f).mem = s.mem := rfl
@[simp] theorem State.writeResultAndFlag_host (x : Nibble) (b f : Byte) : (s.writeResultAndFlag x b f).host = s.host := rfl
@[simp] theorem State.writeResultAndFlag_draws (x : Nibble) (b f : Byte) : (s.writeResultAndFlag x b f).draws = s.draws := rfl
@[simp] theorem State.writeResultAndFlag_loadOpen (x : Nibble) (b f : Byte) : (s.writeResultAndFlag x b f).loadOpen = s.loadOpen := rfl

/-! ### writeAndAdvance -/

@[simp] theorem State.writeAndAdvance_i (x : Nibble) (b : Byte) : (s.writeAndAdvance x b).i = s.i := rfl
@[simp] theorem State.writeAndAdvance_pc (x : Nibble) (b : Byte) : (s.writeAndAdvance x b).pc = s.pc + 2 := rfl
@[simp] theorem State.writeAndAdvance_stack (x : Nibble) (b : Byte) : (s.writeAndAdvance x b).stack = s.stack := rfl
@[simp] theorem State.writeAndAdvance_sp (x : Nibble) (b : Byte) : (s.writeAndAdvance x b).sp = s.sp := rfl
@[simp] theorem State.writeAndAdvance_dt (x : Nibble) (b : Byte) : (s.writeAndAdvance x b).dt = s.dt := rfl
@[simp] theorem State.writeAndAdvance_st (x : Nibble) (b : Byte) : (s.writeAndAdvance x b).st = s.st := rfl
@[simp] theorem State.writeAndAdvance_keys (x : Nibble) (b : Byte) : (s.writeAndAdvance x b).keys = s.keys := rfl
@[simp] theorem State.writeAndAdvance_fb (x : Nibble) (b : Byte) : (s.writeAndAdvance x b).fb = s.fb := rfl
@[simp] theorem State.writeAndAdvance_wait (x : Nibble) (b : Byte) : (s.writeAndAdvance x b).wait = s.wait := rfl
@[simp] theorem State.writeAndAdvance_wreg (x : Nibble) (b : Byte) : (s.writeAndAdvance x b).wreg = s.wreg := rfl
@[simp] theorem State.writeAndAdvance_fault (x : Nibble) (b : Byte) : (s.writeAndAdvance x b).fault = s.fault := rfl
@[simp] theorem State.writeAndAdvance_ir (x : Nibble) (b : Byte) : (s.writeAndAdvance x b).ir = s.ir := rfl
@[simp] theorem State.writeAndAdvance_tacc (x : Nibble) (b : Byte) : (s.writeAndAdvance x b).tacc = s.tacc := rfl
@[simp] theorem State.writeAndAdvance_mem (x : Nibble) (b : Byte) : (s.writeAndAdvance x b).mem = s.mem := rfl
@[simp] theorem State.writeAndAdvance_host (x : Nibble) (b : Byte) : (s.writeAndAdvance x b).host = s.host := rfl
@[simp] theorem State.writeAndAdvance_draws (x : Nibble) (b : Byte) : (s.writeAndAdvance x b).draws = s.draws := rfl
@[simp] theorem State.writeAndAdvance_loadOpen (x : Nibble) (b : Byte) : (s.writeAndAdvance x b).loadOpen = s.loadOpen := rfl

/-! ### writeFlaggedAndAdvance -/

@[simp] theorem State.writeFlaggedAndAdvance_i (x : Nibble) (b f : Byte) : (s.writeFlaggedAndAdvance x b f).i = s.i := rfl
@[simp] theorem State.writeFlaggedAndAdvance_pc (x : Nibble) (b f : Byte) : (s.writeFlaggedAndAdvance x b f).pc = s.pc + 2 := rfl
@[simp] theorem State.writeFlaggedAndAdvance_stack (x : Nibble) (b f : Byte) : (s.writeFlaggedAndAdvance x b f).stack = s.stack := rfl
@[simp] theorem State.writeFlaggedAndAdvance_sp (x : Nibble) (b f : Byte) : (s.writeFlaggedAndAdvance x b f).sp = s.sp := rfl
@[simp] theorem State.writeFlaggedAndAdvance_dt (x : Nibble) (b f : Byte) : (s.writeFlaggedAndAdvance x b f).dt = s.dt := rfl
@[simp] theorem State.writeFlaggedAndAdvance_st (x : Nibble) (b f : Byte) : (s.writeFlaggedAndAdvance x b f).st = s.st := rfl
@[simp] theorem State.writeFlaggedAndAdvance_keys (x : Nibble) (b f : Byte) : (s.writeFlaggedAndAdvance x b f).keys = s.keys := rfl
@[simp] theorem State.writeFlaggedAndAdvance_fb (x : Nibble) (b f : Byte) : (s.writeFlaggedAndAdvance x b f).fb = s.fb := rfl
@[simp] theorem State.writeFlaggedAndAdvance_wait (x : Nibble) (b f : Byte) : (s.writeFlaggedAndAdvance x b f).wait = s.wait := rfl
@[simp] theorem State.writeFlaggedAndAdvance_wreg (x : Nibble) (b f : Byte) : (s.writeFlaggedAndAdvance x b f).wreg = s.wreg := rfl
@[simp] theorem State.writeFlaggedAndAdvance_fault (x : Nibble) (b f : Byte) : (s.writeFlaggedAndAdvance x b f).fault = s.fault := rfl
@[simp] theorem State.writeFlaggedAndAdvance_ir (x : Nibble) (b f : Byte) : (s.writeFlaggedAndAdvance x b f).ir = s.ir := rfl
@[simp] theorem State.writeFlaggedAndAdvance_tacc (x : Nibble) (b f : Byte) : (s.writeFlaggedAndAdvance x b f).tacc = s.tacc := rfl
@[simp] theorem State.writeFlaggedAndAdvance_mem (x : Nibble) (b f : Byte) : (s.writeFlaggedAndAdvance x b f).mem = s.mem := rfl
@[simp] theorem State.writeFlaggedAndAdvance_host (x : Nibble) (b f : Byte) : (s.writeFlaggedAndAdvance x b f).host = s.host := rfl
@[simp] theorem State.writeFlaggedAndAdvance_draws (x : Nibble) (b f : Byte) : (s.writeFlaggedAndAdvance x b f).draws = s.draws := rfl
@[simp] theorem State.writeFlaggedAndAdvance_loadOpen (x : Nibble) (b f : Byte) : (s.writeFlaggedAndAdvance x b f).loadOpen = s.loadOpen := rfl

/-! ### setIr -/

@[simp] theorem State.setIr_v (w : Word) : (s.setIr w).v = s.v := rfl
@[simp] theorem State.setIr_i (w : Word) : (s.setIr w).i = s.i := rfl
@[simp] theorem State.setIr_pc (w : Word) : (s.setIr w).pc = s.pc := rfl
@[simp] theorem State.setIr_stack (w : Word) : (s.setIr w).stack = s.stack := rfl
@[simp] theorem State.setIr_sp (w : Word) : (s.setIr w).sp = s.sp := rfl
@[simp] theorem State.setIr_dt (w : Word) : (s.setIr w).dt = s.dt := rfl
@[simp] theorem State.setIr_st (w : Word) : (s.setIr w).st = s.st := rfl
@[simp] theorem State.setIr_keys (w : Word) : (s.setIr w).keys = s.keys := rfl
@[simp] theorem State.setIr_fb (w : Word) : (s.setIr w).fb = s.fb := rfl
@[simp] theorem State.setIr_wait (w : Word) : (s.setIr w).wait = s.wait := rfl
@[simp] theorem State.setIr_wreg (w : Word) : (s.setIr w).wreg = s.wreg := rfl
@[simp] theorem State.setIr_fault (w : Word) : (s.setIr w).fault = s.fault := rfl
@[simp] theorem State.setIr_ir (w : Word) : (s.setIr w).ir = w := rfl
@[simp] theorem State.setIr_tacc (w : Word) : (s.setIr w).tacc = s.tacc := rfl
@[simp] theorem State.setIr_mem (w : Word) : (s.setIr w).mem = s.mem := rfl
@[simp] theorem State.setIr_host (w : Word) : (s.setIr w).host = s.host := rfl
@[simp] theorem State.setIr_draws (w : Word) : (s.setIr w).draws = s.draws := rfl
@[simp] theorem State.setIr_loadOpen (w : Word) : (s.setIr w).loadOpen = s.loadOpen := rfl
@[simp] theorem State.reg_setIr (w : Word) (q : Nibble) : (s.setIr w).reg q = s.reg q := rfl

/-! ### closeLoad -/

@[simp] theorem State.closeLoad_v : (s.closeLoad).v = s.v := rfl
@[simp] theorem State.closeLoad_i : (s.closeLoad).i = s.i := rfl
@[simp] theorem State.closeLoad_pc : (s.closeLoad).pc = s.pc := rfl
@[simp] theorem State.closeLoad_stack : (s.closeLoad).stack = s.stack := rfl
@[simp] theorem State.closeLoad_sp : (s.closeLoad).sp = s.sp := rfl
@[simp] theorem State.closeLoad_dt : (s.closeLoad).dt = s.dt := rfl
@[simp] theorem State.closeLoad_st : (s.closeLoad).st = s.st := rfl
@[simp] theorem State.closeLoad_keys : (s.closeLoad).keys = s.keys := rfl
@[simp] theorem State.closeLoad_fb : (s.closeLoad).fb = s.fb := rfl
@[simp] theorem State.closeLoad_wait : (s.closeLoad).wait = s.wait := rfl
@[simp] theorem State.closeLoad_wreg : (s.closeLoad).wreg = s.wreg := rfl
@[simp] theorem State.closeLoad_fault : (s.closeLoad).fault = s.fault := rfl
@[simp] theorem State.closeLoad_ir : (s.closeLoad).ir = s.ir := rfl
@[simp] theorem State.closeLoad_tacc : (s.closeLoad).tacc = s.tacc := rfl
@[simp] theorem State.closeLoad_mem : (s.closeLoad).mem = s.mem := rfl
@[simp] theorem State.closeLoad_host : (s.closeLoad).host = s.host := rfl
@[simp] theorem State.closeLoad_draws : (s.closeLoad).draws = s.draws := rfl
@[simp] theorem State.closeLoad_loadOpen : (s.closeLoad).loadOpen = false := rfl
@[simp] theorem State.reg_closeLoad (q : Nibble) : (s.closeLoad).reg q = s.reg q := rfl

/-! ### Registers -/

@[simp] theorem State.reg_setReg_same (r : Nibble) (b : Byte) : (s.setReg r b).reg r = b := by
  simp [State.reg, State.setReg]

theorem State.reg_setReg_of_ne (r : Nibble) (b : Byte) (q : Nibble) (h : q ≠ r) :
    (s.setReg r b).reg q = s.reg q := by
  have : r.toNat ≠ q.toNat := fun e => h (BitVec.eq_of_toNat_eq e.symm)
  simp [State.reg, State.setReg, this]

/-- Reading a register after a write: the one law of the register file. -/
theorem State.reg_setReg (r : Nibble) (b : Byte) (q : Nibble) :
    (s.setReg r b).reg q = if q = r then b else s.reg q := by
  split
  · next h => subst h; simp
  · next h => exact s.reg_setReg_of_ne r b q h

theorem State.reg_writeAndAdvance (x : Nibble) (b : Byte) (q : Nibble) :
    (s.writeAndAdvance x b).reg q = if q = x then b else s.reg q := s.reg_setReg x b q

/-- The flag is written last: with x = F it is the flag that VF holds (R121). -/
theorem State.reg_writeFlaggedAndAdvance (x : Nibble) (b f : Byte) (q : Nibble) :
    (s.writeFlaggedAndAdvance x b f).reg q =
      if q = regF then f else if q = x then b else s.reg q := by
  show ((s.setReg x b).setReg regF f).reg q = _
  rw [State.reg_setReg, State.reg_setReg]

end Sys2Proof.Machine
end

