-- ==== Sys2Proof/Laws/Machine.lean ====
section
/-! SUPPORT. One law per shared operation over registers, stack, framebuffer, keypad and timers: everything it
does, said once. -/

namespace Sys2Proof.Machine

/-! ### Registers in sequence -/

/-- `writeRegsFrom r bs` writes the registers `r`, ..., `r + bs.length - 1` and no other. -/
theorem getElem_writeRegsFrom (r : Nat) (bs : List Byte) (v : Vector Byte 16) (k : Nat) (hk : k < 16) :
    (writeRegsFrom r bs v)[k] = if r ≤ k ∧ k < r + bs.length then bs.getD (k - r) 0 else v[k] := by
  induction bs generalizing r v with
  | nil => simp [writeRegsFrom]
  | cons b bs ih =>
    rw [writeRegsFrom, ih]
    simp only [List.length_cons]
    by_cases h1 : k = r
    · subst h1
      rw [if_neg (by omega), if_pos (by omega)]
      simp
    · by_cases h2 : r + 1 ≤ k ∧ k < r + 1 + bs.length
      · rw [if_pos h2, if_pos (by omega)]
        obtain ⟨j, hj⟩ : ∃ j, k = r + 1 + j := ⟨k - (r + 1), by omega⟩
        subst hj
        have e1 : r + 1 + j - (r + 1) = j := by omega
        have e2 : r + 1 + j - r = j + 1 := by omega
        rw [e1, e2, List.getD_cons_succ]
      · rw [if_neg h2, if_neg (by omega)]
        have h3 : r ≠ k := fun e => h1 e.symm
        simp [h3]

@[simp] theorem State.length_regsUpTo (s : State) (x : Nibble) : (s.regsUpTo x).length = x.toNat + 1 := by
  have := x.isLt
  simp [State.regsUpTo, regCount]
  omega

/-- The r-th byte `Fx55` stores is `V[r]`. -/
theorem State.getD_regsUpTo (s : State) (x : Nibble) (k : Nat) (hk : k < x.toNat + 1) (h : k < 16) :
    (s.regsUpTo x).getD k 0 = s.v[k] := by
  simp [State.regsUpTo, regCount, List.getD_eq_getElem?_getD, hk, h]

/-! ### Framebuffer -/

/-- Toggling a pixel changes that pixel and no other. -/
theorem Framebuffer.pixel_flip (fb : Framebuffer) {x y : Nat} (hx : x < 64) (hy : y < 32) (x' y' : Nat) :
    (fb.flip x y).pixel x' y' =
      if x' = x ∧ y' = y then !fb.pixel x y else fb.pixel x' y' := by
  by_cases hy' : y' < 32
  · by_cases e : y' = y
    · subst e
      by_cases ex : x' = x
      · subst ex
        simp [Framebuffer.flip, Framebuffer.pixel, hy, hx]
      · by_cases h64 : x' < 64
        · have : x' < x ∨ x' - x ≠ 0 := by omega
          rcases this with h | h <;> simp [Framebuffer.flip, Framebuffer.pixel, hy, ex, h64, h]
        · have h64' : 64 ≤ x' := by omega
          simp [Framebuffer.flip, Framebuffer.pixel, hy, ex, h64']
    · have e' : y ≠ y' := fun h => e h.symm
      simp [Framebuffer.flip, Framebuffer.pixel, hy, hy', e, e']
  · have : y' ≠ y := by omega
    simp [Framebuffer.pixel, hy', this]

@[simp] theorem Framebuffer.pixel_clear (x y : Nat) : Framebuffer.clear.pixel x y = false := by
  simp [Framebuffer.clear, Framebuffer.pixel]

/-! ### Keypad -/

/-- Looking at `fuel` keys from `k` finds a pressed one if there is one among them. -/
theorem lowestKeyFrom_pressed (keys : Word) (k fuel j : Nat) (hk : k ≤ j) (hj : j < k + fuel) (h16 : k + fuel ≤ 16)
    (hp : keys.getLsbD j = true) : keys.getLsbD (lowestKeyFrom keys k fuel).toNat = true := by
  induction fuel generalizing k with
  | zero => omega
  | succ fuel ih =>
    simp only [lowestKeyFrom]
    split
    · next h =>
      have : k % 16 = k := Nat.mod_eq_of_lt (by omega)
      simpa [this] using h
    · next h =>
      have : k ≠ j := fun e => h (e ▸ hp)
      exact ih (k + 1) (by omega) (by omega) (by omega)

/-- `key_select` returns a pressed key whenever one is pressed (`45_keypad_timers.md` R195). -/
theorem keySelect_pressed (keys : Word) (h : keys ≠ 0) : keys.getLsbD (keySelect keys).toNat = true := by
  simp only [keySelect]
  split
  · assumption
  · have : ∃ j, j < 16 ∧ keys.getLsbD j = true := by
      by_contra hc
      push Not at hc
      apply h
      apply BitVec.eq_of_getLsbD_eq
      intro i hi
      have := hc i hi
      simpa using this
    obtain ⟨j, hj, hp⟩ := this
    exact lowestKeyFrom_pressed keys 0 16 j (by omega) (by omega) (by omega) hp

/-! ### Timers -/

/-- One period later: one less, floored at 0 (R208). -/
theorem toNat_decrementTimer (t : Byte) : (decrementTimer t).toNat = t.toNat - 1 := by
  have := t.isLt
  simp only [decrementTimer]
  split
  · rw [BitVec.toNat_sub]; simp; omega
  · omega

/-- k periods later: k less, floored at 0 (R209). -/
theorem toNat_timerAfter (t : Byte) (k : Nat) : (timerAfter t k).toNat = t.toNat - k := by
  have := t.isLt
  simp only [timerAfter, BitVec.toNat_ofNat]
  omega

end Sys2Proof.Machine
end

