-- ==== Sys2Proof/Laws/PerInstr.lean ====
section
/-! SUPPORT. Per instruction: its word, as the encoder writes it, matches its row of `30_encoding.md` R66. -/

namespace Sys2Proof.Laws

/-- The encoder puts the fixed bits of the row where the row has them. -/
def WordMatchesRow.Statement (i : Instr) : Prop := i.row.matchesWord (encode i) = true

theorem WordMatchesRow.of_bits {i : Instr}
    (h : ∀ k, k < 16 → ((encode i).getLsbD k && i.row.mask.getLsbD k) = i.row.value.getLsbD k) :
    WordMatchesRow.Statement i := by
  have : encode i &&& i.row.mask = i.row.value := by
    apply BitVec.eq_of_getLsbD_eq
    intro k hk
    rw [BitVec.getLsbD_and]
    exact h k hk
  simp [WordMatchesRow.Statement, OpcodeRow.matchesWord, this]

theorem WordMatchesRow.cls : Statement .cls := by
  simp [Statement, OpcodeRow.matchesWord, encode, Instr.row]

theorem WordMatchesRow.ret : Statement .ret := by
  simp [Statement, OpcodeRow.matchesWord, encode, Instr.row]

theorem WordMatchesRow.jp (nnn : Addr12) : Statement (.jp nnn) := by
  apply of_bits; intro k hk; simp only [encode, Instr.row, getLsbD_packNnn]; interval_cases k <;> simp

theorem WordMatchesRow.call (nnn : Addr12) : Statement (.call nnn) := by
  apply of_bits; intro k hk; simp only [encode, Instr.row, getLsbD_packNnn]; interval_cases k <;> simp

theorem WordMatchesRow.seImm (x : Nibble) (kk : Byte) : Statement (.seImm x kk) := by
  apply of_bits; intro k hk; simp only [encode, Instr.row, getLsbD_packXkk]; interval_cases k <;> simp

theorem WordMatchesRow.sneImm (x : Nibble) (kk : Byte) : Statement (.sneImm x kk) := by
  apply of_bits; intro k hk; simp only [encode, Instr.row, getLsbD_packXkk]; interval_cases k <;> simp

theorem WordMatchesRow.seReg (x y : Nibble) : Statement (.seReg x y) := by
  apply of_bits; intro k hk; simp only [encode, Instr.row, getLsbD_packXyn]; interval_cases k <;> simp

theorem WordMatchesRow.ldImm (x : Nibble) (kk : Byte) : Statement (.ldImm x kk) := by
  apply of_bits; intro k hk; simp only [encode, Instr.row, getLsbD_packXkk]; interval_cases k <;> simp

theorem WordMatchesRow.addImm (x : Nibble) (kk : Byte) : Statement (.addImm x kk) := by
  apply of_bits; intro k hk; simp only [encode, Instr.row, getLsbD_packXkk]; interval_cases k <;> simp

theorem WordMatchesRow.ldReg (x y : Nibble) : Statement (.ldReg x y) := by
  apply of_bits; intro k hk; simp only [encode, Instr.row, getLsbD_packXyn]; interval_cases k <;> simp

theorem WordMatchesRow.orReg (x y : Nibble) : Statement (.orReg x y) := by
  apply of_bits; intro k hk; simp only [encode, Instr.row, getLsbD_packXyn]; interval_cases k <;> simp

theorem WordMatchesRow.andReg (x y : Nibble) : Statement (.andReg x y) := by
  apply of_bits; intro k hk; simp only [encode, Instr.row, getLsbD_packXyn]; interval_cases k <;> simp

theorem WordMatchesRow.xorReg (x y : Nibble) : Statement (.xorReg x y) := by
  apply of_bits; intro k hk; simp only [encode, Instr.row, getLsbD_packXyn]; interval_cases k <;> simp

theorem WordMatchesRow.addReg (x y : Nibble) : Statement (.addReg x y) := by
  apply of_bits; intro k hk; simp only [encode, Instr.row, getLsbD_packXyn]; interval_cases k <;> simp

theorem WordMatchesRow.subReg (x y : Nibble) : Statement (.subReg x y) := by
  apply of_bits; intro k hk; simp only [encode, Instr.row, getLsbD_packXyn]; interval_cases k <;> simp

theorem WordMatchesRow.shr (x y : Nibble) : Statement (.shr x y) := by
  apply of_bits; intro k hk; simp only [encode, Instr.row, getLsbD_packXyn]; interval_cases k <;> simp

theorem WordMatchesRow.subn (x y : Nibble) : Statement (.subn x y) := by
  apply of_bits; intro k hk; simp only [encode, Instr.row, getLsbD_packXyn]; interval_cases k <;> simp

theorem WordMatchesRow.shl (x y : Nibble) : Statement (.shl x y) := by
  apply of_bits; intro k hk; simp only [encode, Instr.row, getLsbD_packXyn]; interval_cases k <;> simp

theorem WordMatchesRow.sneReg (x y : Nibble) : Statement (.sneReg x y) := by
  apply of_bits; intro k hk; simp only [encode, Instr.row, getLsbD_packXyn]; interval_cases k <;> simp

theorem WordMatchesRow.ldI (nnn : Addr12) : Statement (.ldI nnn) := by
  apply of_bits; intro k hk; simp only [encode, Instr.row, getLsbD_packNnn]; interval_cases k <;> simp

theorem WordMatchesRow.jpV0 (nnn : Addr12) : Statement (.jpV0 nnn) := by
  apply of_bits; intro k hk; simp only [encode, Instr.row, getLsbD_packNnn]; interval_cases k <;> simp

theorem WordMatchesRow.rnd (x : Nibble) (kk : Byte) : Statement (.rnd x kk) := by
  apply of_bits; intro k hk; simp only [encode, Instr.row, getLsbD_packXkk]; interval_cases k <;> simp

theorem WordMatchesRow.drw (x y n : Nibble) : Statement (.drw x y n) := by
  apply of_bits; intro k hk; simp only [encode, Instr.row, getLsbD_packXyn]; interval_cases k <;> simp

theorem WordMatchesRow.skp (x : Nibble) : Statement (.skp x) := by
  apply of_bits; intro k hk; simp only [encode, Instr.row, getLsbD_packXkk]; interval_cases k <;> simp

theorem WordMatchesRow.sknp (x : Nibble) : Statement (.sknp x) := by
  apply of_bits; intro k hk; simp only [encode, Instr.row, getLsbD_packXkk]; interval_cases k <;> simp

theorem WordMatchesRow.ldVxDt (x : Nibble) : Statement (.ldVxDt x) := by
  apply of_bits; intro k hk; simp only [encode, Instr.row, getLsbD_packXkk]; interval_cases k <;> simp

theorem WordMatchesRow.ldVxK (x : Nibble) : Statement (.ldVxK x) := by
  apply of_bits; intro k hk; simp only [encode, Instr.row, getLsbD_packXkk]; interval_cases k <;> simp

theorem WordMatchesRow.ldDtVx (x : Nibble) : Statement (.ldDtVx x) := by
  apply of_bits; intro k hk; simp only [encode, Instr.row, getLsbD_packXkk]; interval_cases k <;> simp

theorem WordMatchesRow.ldStVx (x : Nibble) : Statement (.ldStVx x) := by
  apply of_bits; intro k hk; simp only [encode, Instr.row, getLsbD_packXkk]; interval_cases k <;> simp

theorem WordMatchesRow.addI (x : Nibble) : Statement (.addI x) := by
  apply of_bits; intro k hk; simp only [encode, Instr.row, getLsbD_packXkk]; interval_cases k <;> simp

theorem WordMatchesRow.ldF (x : Nibble) : Statement (.ldF x) := by
  apply of_bits; intro k hk; simp only [encode, Instr.row, getLsbD_packXkk]; interval_cases k <;> simp

theorem WordMatchesRow.ldB (x : Nibble) : Statement (.ldB x) := by
  apply of_bits; intro k hk; simp only [encode, Instr.row, getLsbD_packXkk]; interval_cases k <;> simp

theorem WordMatchesRow.storeRegs (x : Nibble) : Statement (.storeRegs x) := by
  apply of_bits; intro k hk; simp only [encode, Instr.row, getLsbD_packXkk]; interval_cases k <;> simp

theorem WordMatchesRow.loadRegs (x : Nibble) : Statement (.loadRegs x) := by
  apply of_bits; intro k hk; simp only [encode, Instr.row, getLsbD_packXkk]; interval_cases k <;> simp

end Sys2Proof.Laws
end

