-- ==== Sys2Proof/Tests/Slice0.lean ====
section
/-! SUPPORT. Tests. Expected results are from outside the model: the vectors of `95_test_vectors.md` (S1 to S13 and
the T- ids named at each test) and words written out by hand from the patterns of `30_encoding.md` R66. After them,
for every obligation with hypotheses, a concrete state and operands that meet all of them, clause by clause. -/

namespace Sys2Proof.Tests

open Sys2Proof Sys2Proof.Machine

/-! ### Helpers -/

/-- The state after one step that runs the word `w` in the state `s`. -/
def after (s : State) (w : Nat) : Option State :=
  match step (s.withFetchWord 16 w) with
  | .next t => some t
  | .fault _ => none
  | .refused _ => none

/-- Some readings of the state after the word. -/
def look {α : Type} (s : State) (w : Nat) (f : State → α) : Option α := (after s w).map f

/-- The reset state with registers set. -/
def regs (l : List (Nibble × Byte)) : State := l.foldl (fun s p => s.setReg p.1 p.2) State.reset

/-- The reset state with I set and bytes stored. -/
def memI (i : Word) (m : Memory) : State := { State.reset with i := i, mem := m }

/-- The state of the host's next event delivered. -/
def delivered (e : HostEvent) (s : State) : Option State :=
  match deliver e s with
  | .next t => some t
  | .fault _ => none
  | .refused _ => none

/-! ### Decoding: every constructor by a written-out word -/

theorem test_decode_flow :
    decode 0b0001000100100010 = .ok (.jp 0x122) ∧ decode 0b0010001100000000 = .ok (.call 0x300) ∧
    decode 0b0000000011101110 = .ok .ret ∧ decode 0b1011001100000000 = .ok (.jpV0 0x300) ∧
    decode 0b0011001100101010 = .ok (.seImm 3 0x2A) ∧ decode 0b0100001100101010 = .ok (.sneImm 3 0x2A) ∧
    decode 0b0101000100100000 = .ok (.seReg 1 2) ∧ decode 0b1001000100100000 = .ok (.sneReg 1 2) := by decide

theorem test_decode_alu :
    decode 0b0110101000111100 = .ok (.ldImm 10 0x3C) ∧ decode 0b0111000111111111 = .ok (.addImm 1 0xFF) ∧
    decode 0b1000000100100000 = .ok (.ldReg 1 2) ∧ decode 0b1000000100100001 = .ok (.orReg 1 2) ∧
    decode 0b1000000100100010 = .ok (.andReg 1 2) ∧ decode 0b1000000100100011 = .ok (.xorReg 1 2) ∧
    decode 0b1000000100100100 = .ok (.addReg 1 2) ∧ decode 0b1000000100100101 = .ok (.subReg 1 2) ∧
    decode 0b1000101010110110 = .ok (.shr 10 11) ∧ decode 0b1000000100100111 = .ok (.subn 1 2) ∧
    decode 0b1000111111101110 = .ok (.shl 15 14) ∧ decode 0b1100000100001111 = .ok (.rnd 1 0x0F) := by decide

theorem test_decode_index_memory :
    decode 0b1010111111111111 = .ok (.ldI 0xFFF) ∧ decode 0b1111000100011110 = .ok (.addI 1) ∧
    decode 0b1111010000101001 = .ok (.ldF 4) ∧ decode 0b1111000100110011 = .ok (.ldB 1) ∧
    decode 0b1111111101010101 = .ok (.storeRegs 15) ∧ decode 0b1111001001100101 = .ok (.loadRegs 2) := by decide

theorem test_decode_display_keypad_timers :
    decode 0b0000000011100000 = .ok .cls ∧ decode 0b1101000100100011 = .ok (.drw 1 2 3) ∧
    decode 0b1110000110011110 = .ok (.skp 1) ∧ decode 0b1110000110100001 = .ok (.sknp 1) ∧
    decode 0b1111010100001010 = .ok (.ldVxK 5) ∧ decode 0b1111001000000111 = .ok (.ldVxDt 2) ∧
    decode 0b1111000000010101 = .ok (.ldDtVx 0) ∧ decode 0b1111001100011000 = .ok (.ldStVx 3) := by decide

/-- Part 2.1: words at the edges of valid ranges. -/
theorem test_decode_edges :
    [0x1000, 0x1FFF, 0x5FF0, 0x9000, 0x8FFE, 0xD000, 0xEF9E, 0xE0A1, 0xFF65, 0xF007].all
      (fun w => wordWellFormed w && (decode w).isOk) = true := by decide

theorem test_decode_truncated :
    decodeBytes [] = .error .truncated ∧ decodeBytes [0x61] = .error .truncated ∧
    decodeBytes [0x61, 0x2A, 0x12] = .ok (.ldImm 1 0x2A, [0x12]) := by decide

theorem test_table_word : decodeTableWord 16 0x612A = some (.ldImm 1 0x2A) ∧ decodeTableWord 16 0x5121 = none := by
  decide

/-! ### WellFormed: ill-formed terms refused (part 2.1, T-X3) -/

theorem test_ill_formed_family_0 :
    [0x0000, 0x00E1, 0x00FE, 0x0123, 0x0FFF].any wordWellFormed = false := by decide

theorem test_ill_formed_families_5_9 :
    [0x5121, 0x512F, 0x9121, 0x912F].any wordWellFormed = false := by decide

theorem test_ill_formed_family_8 :
    [0x8128, 0x8129, 0x812A, 0x812B, 0x812C, 0x812D, 0x812F].any wordWellFormed = false := by decide

theorem test_ill_formed_family_e : [0xE19F, 0xE1A0, 0xE100, 0xE1FF].any wordWellFormed = false := by decide

theorem test_ill_formed_family_f :
    [0xF100, 0xF108, 0xF130, 0xF175, 0xF185, 0xF1FF, 0xFFFF].any wordWellFormed = false := by decide

theorem test_ill_formed_words_are_not_decoded :
    [0x0000, 0x0123, 0x5121, 0x912F, 0x8128, 0x812F, 0xE19F, 0xE100, 0xF100, 0xFFFF].any
      (fun w => (decode w).isOk) = false := by decide

theorem test_ill_formed_image : imageWellFormed (List.replicate 3585 0) = false := by
  simp only [imageWellFormed, List.length_replicate]; decide

theorem test_well_formed_image : imageWellFormed (List.replicate 3584 0) = true := by
  simp only [imageWellFormed, List.length_replicate]; decide

/-! ### Where a test places an instruction -/

theorem test_placed_after_reset :
    (State.reset.withFetchWord 16 0x612A).mem = [(0x200, 0x61), (0x201, 0x2A)] ∧
    fetch (State.reset.withFetchWord 16 0x612A) = some 0x612A := by decide

theorem test_placed_in_a_stopped_state :
    look { State.reset with pc := 0xFFF, fault := .memoryBounds, wait := true, host := [.reset] } 0x612A
      (fun t => (t.reg 1, t.pc)) = some (0x2A, 0x202) := by decide

/-! ### Fetch and dispatch -/

/-- T-F1. -/
theorem test_fetch_big_endian : look State.reset 0x612A (fun t => (t.ir, t.reg 1, t.pc)) =
    some (0x612A, 0x2A, 0x202) := by decide

/-- T-F2. -/
theorem test_fetch_odd_pc : look { State.reset with pc := 0x201 } 0x612A (fun t => (t.ir, t.reg 1, t.pc)) =
    some (0x612A, 0x2A, 0x203) := by decide

/-- T-F3. -/
theorem test_fetch_out_of_bounds :
    (delivered .tick { State.reset with pc := 0xFFF, ir := 0x1234 }).map (fun t => (t.fault, t.pc, t.ir)) =
      some (.memoryBounds, 0xFFF, 0x1234) := by decide

/-- T-F4. -/
theorem test_fetch_last_address : look { State.reset with pc := 0xFFE } 0x6107
    (fun t => (t.reg 1, t.pc, t.fault)) = some (0x07, 0x1000, .none) := by decide

/-- T-F5. -/
theorem test_empty_memory_halts : (delivered .tick State.reset).map (fun t => (t.faultValue, t.pc, t.ir)) =
    some (2, 0x200, 0) := by decide

/-- T-F6. -/
theorem test_halted_tick : step { State.reset with fault := .notImplemented } =
    .next { State.reset with fault := .notImplemented } := rfl

/-! ### Control transfer and the stack -/

/-- T-C1, S6. -/
theorem test_jp : look State.reset 0x1200 State.pc = some 0x200 ∧ look State.reset 0x1122 State.pc = some 0x122 := by
  decide

/-- T-C3, T-C4. -/
theorem test_jp_v0 : look (regs [(0, 0x04)]) 0xB300 State.pc = some 0x304 ∧
    look (regs [(0, 0xFF)]) 0xBFFF State.pc = some 0x10FE := by decide

/-- T-C6, T-C8. -/
theorem test_call : look { State.reset with pc := 0x204 } 0x2210 (fun t => (t.sp, t.stack.get 0, t.pc)) =
      some (0x00, 0x206, 0x210) ∧
    look { State.reset with sp := 0x0E } 0x2300 (fun t => (t.sp, t.stack.get 15, t.pc)) =
      some (0x0F, 0x202, 0x300) := by decide

/-- T-C9. -/
theorem test_call_overflow : look { State.reset with sp := 0x0F } 0x2300 (fun t => (t.fault, t.sp, t.pc, t.stack)) =
    some (.stackOverflow, 0x0F, 0x200, State.reset.stack) := by decide

/-- T-C7. -/
theorem test_ret : look { State.reset with pc := 0x212, sp := 0, stack := State.reset.stack.set 0 0x206 } 0x00EE
    (fun t => (t.pc, t.sp, t.stack.get 0)) = some (0x206, 0xFF, 0x206) := by decide

/-- T-C5. -/
theorem test_ret_underflow : look State.reset 0x00EE (fun t => (t.faultValue, t.pc, t.sp, t.ir)) =
    some (4, 0x200, 0xFF, 0x00EE) := by decide

/-- S8. -/
theorem test_se_imm : look (regs [(3, 0x2A)]) 0x332A State.pc = some 0x204 ∧
    look (regs [(3, 0x2B)]) 0x332A State.pc = some 0x202 := by decide

/-- S8. -/
theorem test_sne_imm : look (regs [(3, 0x2A)]) 0x432A State.pc = some 0x202 ∧
    look (regs [(3, 0x2B)]) 0x432A State.pc = some 0x204 := by decide

/-- S8, T-C13. -/
theorem test_se_reg : look (regs [(1, 7), (2, 8)]) 0x5120 State.pc = some 0x202 ∧
    look (regs [(4, 9)]) 0x5440 State.pc = some 0x204 := by decide

/-- T-C15, T-C14. -/
theorem test_sne_reg : look (regs [(1, 0x80), (2, 0x7F)]) 0x9120 State.pc = some 0x204 ∧
    look (regs [(4, 9)]) 0x9440 State.pc = some 0x202 := by decide

/-! ### Register file and ALU -/

/-- T-A28, T-A29. -/
theorem test_ld_imm : look State.reset 0x6A3C (State.reg · 10) = some 0x3C ∧
    look State.reset 0x6FFF (State.reg · regF) = some 0xFF := by decide

/-- T-A26, T-A27. -/
theorem test_add_imm : look (regs [(1, 0xFF), (15, 0x55)]) 0x7101 (fun t => (t.reg 1, t.reg regF)) = some (0, 0x55) ∧
    look (regs [(15, 0xFF)]) 0x7F02 (State.reg · regF) = some 0x01 := by decide

/-- T-A23, T-A24. -/
theorem test_ld_reg : look (regs [(2, 0x99)]) 0x8120 (fun t => (t.reg 1, t.reg 2)) = some (0x99, 0x99) ∧
    look (regs [(2, 0x99)]) 0x8F20 (State.reg · regF) = some 0x99 := by decide

/-- T-A19. -/
theorem test_or : look (regs [(1, 0xF0), (2, 0x0F), (15, 0x55)]) 0x8121 (fun t => (t.reg 1, t.reg regF)) =
    some (0xFF, 0x55) := by decide

/-- T-A20. -/
theorem test_and : look (regs [(1, 0xF3), (2, 0x3F), (15, 0x55)]) 0x8122 (fun t => (t.reg 1, t.reg regF)) =
    some (0x33, 0x55) := by decide

/-- T-A21. -/
theorem test_xor : look (regs [(1, 0xFF), (2, 0x0F), (15, 0x55)]) 0x8123 (fun t => (t.reg 1, t.reg regF)) =
    some (0xF0, 0x55) := by decide

/-- T-A1, T-A2. -/
theorem test_add_reg : look (regs [(1, 0xFF), (2, 1)]) 0x8124 (fun t => (t.reg 1, t.reg regF)) = some (0, 1) ∧
    look (regs [(15, 1)]) 0x8124 (fun t => (t.reg 1, t.reg regF)) = some (0, 0) := by decide

/-- T-A4, T-A6. -/
theorem test_add_reg_with_vf : look (regs [(15, 0xF8), (2, 0x10)]) 0x8F24 (State.reg · regF) = some 1 ∧
    look (regs [(1, 0x10), (15, 1)]) 0x81F4 (fun t => (t.reg 1, t.reg regF)) = some (0x11, 0) := by decide

/-- T-A7, T-A8. -/
theorem test_sub : look (regs [(1, 10), (2, 10)]) 0x8125 (fun t => (t.reg 1, t.reg regF)) = some (0, 1) ∧
    look (regs [(2, 1), (15, 1)]) 0x8125 (fun t => (t.reg 1, t.reg regF)) = some (0xFF, 0) := by decide

/-- T-A10, T-A11. -/
theorem test_sub_operand_order : look (regs [(1, 10), (2, 3)]) 0x8125 (fun t => (t.reg 1, t.reg regF)) = some (7, 1) ∧
    look (regs [(1, 3), (2, 10)]) 0x8125 (fun t => (t.reg 1, t.reg regF)) = some (0xF9, 0) := by decide

/-- S5. -/
theorem test_subn : look (regs [(1, 5), (2, 4)]) 0x8127 (fun t => (t.reg 1, t.reg regF)) = some (0xFF, 0) ∧
    look (regs [(1, 4), (2, 5)]) 0x8127 (fun t => (t.reg 1, t.reg regF)) = some (1, 1) := by decide

/-- T-A13, T-A15. -/
theorem test_shr : look (regs [(1, 1), (2, 0xAA)]) 0x8126 (fun t => (t.reg 1, t.reg regF, t.reg 2)) =
      some (0, 1, 0xAA) ∧
    look (regs [(15, 3)]) 0x8F06 (State.reg · regF) = some 1 := by decide

/-- R69: both words shift V10 and leave V11. -/
theorem test_shr_ignores_y : look (regs [(10, 5), (11, 0xF0)]) 0x8AB6 (fun t => (t.reg 10, t.reg regF, t.reg 11)) =
      some (2, 1, 0xF0) ∧
    look (regs [(10, 5), (11, 0xF0)]) 0x8A06 (fun t => (t.reg 10, t.reg regF, t.reg 11)) = some (2, 1, 0xF0) := by
  decide

/-- T-A16, T-A18. -/
theorem test_shl : look (regs [(1, 0xFF), (2, 0xAA)]) 0x812E (fun t => (t.reg 1, t.reg regF, t.reg 2)) =
      some (0xFE, 1, 0xAA) ∧
    look (regs [(15, 0x81)]) 0x8FEE (State.reg · regF) = some 1 := by decide

/-- T-A30, S13: a zero mask gives 0 whatever is drawn, and VF is kept. -/
theorem test_rnd_zero_mask : look (regs [(1, 0x77), (15, 0x55)]) 0xC100 (fun t => (t.reg 1, t.reg regF)) =
    some (0, 0x55) := by
  show some (Config.rnd 0 &&& 0#8, 0x55#8) = some (0, 0x55)
  simp

/-! ### Index register and memory -/

/-- T-M1. -/
theorem test_ld_i : look State.reset 0xAFFF (fun t => (t.i, t.pc)) = some (0xFFF, 0x202) := by decide

/-- T-M2, T-M3. -/
theorem test_add_i :
    look ({ State.reset with i := 0xFFF }.setReg 1 1) 0xF11E (fun t => (t.i, t.reg regF)) = some (0x1000, 0) ∧
    look (({ State.reset with i := 0xFFFF }.setReg 1 2).setReg regF 7) 0xF11E (fun t => (t.i, t.reg regF)) =
      some (0x0001, 7) := by decide

/-- T-M4: the high nibble is ignored, and ten glyphs of five bytes come before the eleventh. -/
theorem test_ld_f : look (regs [(4, 0x1A)]) 0xF429 State.i = some (BitVec.ofNat 16 (Config.fontBase.val + 50)) := rfl

/-- T-M7, T-M8. -/
theorem test_bcd :
    look ({ State.reset with i := 0x300 }.setReg 1 99) 0xF133 (fun t => t.mem.readBytes 0x300 3) = some [0, 9, 9] ∧
    look ({ State.reset with i := 0xFFD }.setReg 1 255) 0xF133 (fun t => t.mem.readBytes 0xFFD 3) =
      some [2, 5, 5] := by decide

/-- T-M9. -/
theorem test_bcd_out_of_bounds : look ({ State.reset with i := 0xFFE }.setReg 1 255) 0xF133
    (fun t => (t.fault, t.mem.readBytes 0xFFE 2, t.pc)) = some (.memoryBounds, [0, 0], 0x200) := by decide

/-- S11, T-M14. -/
theorem test_store_regs :
    look ({ State.reset with i := 0x400, v := (regs [(0, 0xDE), (1, 0xAD), (2, 0xBE), (3, 0xEF)]).v } ) 0xF355
      (fun t => (t.mem.readBytes 0x400 5, t.i)) = some ([0xDE, 0xAD, 0xBE, 0xEF, 0], 0x400) ∧
    look ({ State.reset with i := 0x300 }.setReg 0 0x5A) 0xF055 (fun t => t.mem.readBytes 0x300 2) =
      some [0x5A, 0] := by decide

/-- T-M11. -/
theorem test_store_regs_all_or_nothing : look ({ State.reset with i := 0xFF1 }.setReg 0 0xA0) 0xFF55
    (fun t => (t.fault, t.mem.read 0xFF1)) = some (.memoryBounds, 0) := by decide

/-- T-M15: the region below 0x200 is writable. -/
theorem test_store_below_program : look ({ State.reset with i := 0x100 }.setReg 0 0x77) 0xF055 (fun t => t.mem.read 0x100)
    = some 0x77 := by
  show some ((Memory.write [(0x200, 0xF0), (0x201, 0x55)] 0x100 0x77).read 0x100) = some 0x77
  rw [Memory.read_write (by decide)]
  rfl

/-- T-M13. -/
theorem test_load_regs : look ((memI 0x300 [(0x300, 0x11), (0x301, 0x22), (0x302, 0x33)]).setReg 3 0x77) 0xF265
    (fun t => (t.reg 0, t.reg 1, t.reg 2, t.reg 3, t.i)) = some (0x11, 0x22, 0x33, 0x77, 0x300) := by decide

/-- T-M12. -/
theorem test_load_regs_out_of_bounds : look (memI 0x1000 []) 0xF065 (fun t => (t.fault, t.reg 0)) =
    some (.memoryBounds, 0) := by decide

/-! ### Framebuffer -/

/-- T-B1. -/
theorem test_cls : look { State.reset with fb := (State.reset.fb.set 4 8).set 31 0x8000000000000000 } 0x00E0
    (fun t => (t.fb, t.pc)) = some (State.reset.fb, 0x202) := by decide

/-- T-B2: columns 62, 63, 0 to 5 of row 31. -/
theorem test_drw_wraps : look (((memI 0x300 [(0x300, 0xFF)]).setReg 1 0x7E).setReg 2 0x3F) 0xD121
    (fun t => (t.fb, t.reg regF)) = some (State.reset.fb.set 31 0xC00000000000003F, 0) := by decide

/-- T-B4: pixel (1, 0) unset, pixel (0, 0) set. -/
theorem test_drw_collision : look { memI 0x300 [(0x300, 0xC0)] with fb := State.reset.fb.set 0 2 } 0xD001
    (fun t => (t.fb, t.reg regF)) = some (State.reset.fb.set 0 1, 1) := by decide

/-- T-B6, T-B7. -/
theorem test_drw_bounds : look ((memI 0x1000 []).setReg regF 9) 0xD120 (fun t => (t.fault, t.reg regF, t.pc)) =
      some (.none, 0, 0x202) ∧
    look ((memI 0xFFF []).setReg regF 9) 0xD122 (fun t => (t.fault, t.reg regF, t.pc)) =
      some (.memoryBounds, 9, 0x200) := by decide

/-! ### Keypad and timers -/

/-- T-K1, T-K2. -/
theorem test_skp : look ({ State.reset with keys := 0x0080 }.setReg 1 7) 0xE19E State.pc = some 0x204 ∧
    look (regs [(1, 7)]) 0xE19E State.pc = some 0x202 := by decide

/-- T-K4, T-K6. -/
theorem test_sknp : look ({ State.reset with keys := 0xFF7F }.setReg 1 7) 0xE1A1 State.pc = some 0x204 ∧
    look ({ State.reset with keys := 0x0080 }.setReg 1 0x17) 0xE1A1 State.pc = some 0x202 := by decide

/-- S9, tick 1. -/
theorem test_ld_vx_k : look State.reset 0xF50A (fun t => (t.wait, t.wreg, t.pc, t.ir)) =
    some (true, 5, 0x200, 0xF50A) := by decide

/-- S9, ticks 2 and 4: nothing without a key, then key 9, the only one pressed. -/
theorem test_wait_poll :
    (delivered .tick { State.reset with wait := true, wreg := 5 }) =
      some { State.reset with wait := true, wreg := 5 } ∧
    (delivered .tick { State.reset with wait := true, wreg := 5, keys := 0x0200 }).map
      (fun t => (t.reg 5, t.wait, t.pc)) = some (0x09, false, 0x202) := by
  refine ⟨by decide, ?_⟩
  have h : ∀ k : Nibble, (0x0200#16).getLsbD k.toNat = true → k = 9 := by decide
  have e : keySelect 0x0200 = 9 := h _ (keySelect_pressed 0x0200 (by decide))
  show some (zext4 (keySelect 0x0200), false, (0x202 : Word)) = _
  rw [e]; decide

/-- T-T3. -/
theorem test_ld_vx_dt : look { State.reset with dt := 50 } 0xF207 (fun t => (t.reg 2, t.dt)) = some (0x32, 50) := by
  decide

/-- T-T1. -/
theorem test_ld_dt_vx : look (regs [(0, 0x3C)]) 0xF015 State.dt = some 60 := by decide

/-- T-T2. -/
theorem test_ld_st_vx : look (regs [(3, 5)]) 0xF318 (fun t => (t.st, t.tone)) = some (5, true) := by decide

/-- T-T4, pulse 1 and pulse 3. -/
theorem test_timer_pulse :
    (delivered .timerPulse { State.reset with dt := 2, st := 1 }).map (fun t => (t.dt, t.st)) = some (1, 0) ∧
    (delivered .timerPulse State.reset).map (fun t => (t.dt, t.st)) = some (0, 0) := by decide

/-- T-T6: five periods from DT = 2. -/
theorem test_advance_timers :
    (delivered (.advanceTimers (5 * Config.timerPeriod)) { State.reset with dt := 2 }).map State.dt = some 0 := by
  show some (timerAfter 2 ((0 + 5 * Config.timerPeriod) / Config.timerPeriod)) = some 0
  rw [Nat.zero_add, Nat.mul_div_cancel _ (show 0 < Config.timerPeriod from Nat.succ_pos _)]
  decide

/-! ### Reset and load -/

/-- T-X1. -/
theorem test_reset_event :
    delivered .reset { memI 0x300 [(0x200, 1)] with pc := 0x300, fault := .notImplemented, wait := true, fb := State.reset.fb.set 3 7 } =
      some State.reset := by decide

/-- T-X5. -/
theorem test_load_words : (delivered (.loadRomWords [0x6005, 0x1202]) State.reset).map (fun t => t.mem.readBytes 0x200 5) =
    some [0x60, 0x05, 0x12, 0x02, 0] := by decide

/-- T-X4. -/
theorem test_load_nothing : delivered (.loadRom []) State.reset = some State.reset ∧
    reply (.loadRom []) State.reset = some .ok := by decide

/-- R262: glyphs 0, A and F of the default table. -/
theorem test_default_font :
    (Config.defaultFontBytes.take 5, (Config.defaultFontBytes.drop 50).take 5, Config.defaultFontBytes.drop 75) =
      ([0xF0, 0x90, 0x90, 0x90, 0xF0], [0xF0, 0x90, 0xF0, 0x90, 0x90], [0xF0, 0x80, 0xF0, 0x80, 0x80]) := by decide

/-- T-B9: glyph A of the default table, its five bytes put at 0x300. -/
theorem test_default_glyph_a :
    look (memI 0x300 (Memory.writeBytes [] 0x300 ((Config.defaultFontBytes.drop 50).take 5))) 0xD015
      (fun t => (t.fb, t.reg regF)) =
      some (((((State.reset.fb.set 0 0xF).set 1 0x9).set 2 0xF).set 3 0x9).set 4 0x9, 0) := by decide

/-- R263, D19. -/
theorem test_late_load : deliver (.loadRom [0x12]) { State.reset with loadOpen := false } =
    .refused .loadAfterFirstTick := rfl

/-! ### Witnesses: a state and operands that meet all hypotheses of each obligation

One theorem per obligation, with a conjunct (or a further theorem) for each clause, at the boundary values. -/

/-- A halted state that meets the invariant. -/
def haltedState : State := { State.reset with fault := .memoryBounds, loadOpen := false }

/-- A state with a word at 0x200. -/
def withWord (w : Word) : State := { State.reset with mem := [(0x200, highByte w), (0x201, lowByte w)] }

/-- A way to see that an obligation about `exec` has a next state to speak of. -/
def completes (i : Instr) (s : State) : Prop := ∃ t, exec i s = .next t

theorem witness_EncodeOfDecodedWordIsIdentity : decode 0x8AB6 = .ok (.shr 10 11) := by decide

theorem witness_UnlistedWordHaltsWithNotImplemented :
    State.reset.host = [] ∧ State.reset.Running ∧ State.reset.pc.toNat ≤ 0xFFE ∧
    wordWellFormed State.reset.wordAtPc = false := ⟨rfl, ⟨rfl, rfl⟩, by decide, by decide⟩

theorem witness_StepRunsTheDecodedInstruction :
    (withWord 0x612A).Running ∧ (withWord 0x612A).pc.toNat ≤ 0xFFE ∧
    decode (withWord 0x612A).wordAtPc = .ok (.ldImm 1 0x2A) ∧ (withWord 0x612A).host = [] :=
  ⟨⟨rfl, rfl⟩, by decide, by decide, rfl⟩

theorem witness_StepRunsTheDecodedInstruction_scheduled :
    ({ withWord 0x612A with host := [.tick, .reset] } : State).Running ∧
    decode ({ withWord 0x612A with host := [.tick, .reset] } : State).wordAtPc = .ok (.ldImm 1 0x2A) ∧
    ({ withWord 0x612A with host := [.tick, .reset] } : State).host = .tick :: [.reset] :=
  ⟨⟨rfl, rfl⟩, by decide, rfl⟩

theorem witness_UnfetchablePcHaltsWithMemoryBounds :
    ({ State.reset with pc := 0xFFF } : State).Running ∧ 0xFFE < ({ State.reset with pc := 0xFFF } : State).pc.toNat :=
  ⟨⟨rfl, rfl⟩, by decide⟩

theorem witness_HaltedTickChangesNothingAndFails : haltedState.Halted := fun h => nomatch h

theorem witness_FailingTickChangesOnlyFaultAndIr :
    State.reset.Running ∧ ∃ t, tick State.reset = .next t ∧ t.Halted := ⟨⟨rfl, rfl⟩, _, rfl, fun h => nomatch h⟩

theorem witness_FailingTickChangesOnlyFaultAndIr_unfetchable :
    ({ State.reset with pc := 0xFFF } : State).Running ∧
    ∃ t, tick { State.reset with pc := 0xFFF } = .next t ∧ t.Halted := ⟨⟨rfl, rfl⟩, _, rfl, fun h => nomatch h⟩

theorem witness_TickReportsTheFirstFailingCheck :
    (withWord 0x612A).Running ∧ (withWord 0x612A).SpLegal ∧ firstFailingCheck (withWord 0x612A) = .none :=
  ⟨⟨rfl, rfl⟩, .inl rfl, by decide⟩

theorem witness_TickReportsTheFirstFailingCheck_failing :
    firstFailingCheck { State.reset with pc := 0xFFF } = .memoryBounds ∧
    firstFailingCheck State.reset = .notImplemented ∧ firstFailingCheck (withWord 0x00EE) = .stackUnderflow ∧
    firstFailingCheck { withWord 0x2300 with sp := 0x0F } = .stackOverflow ∧
    firstFailingCheck { withWord 0xF133 with i := 0xFFE } = .memoryBounds := by decide

theorem witness_CallPushesTheResumeAddress :
    ({ State.reset with sp := 0x0F } : State).SpLegal ∧ ({ State.reset with sp := 0x0E } : State).SpLegal ∧
    (0x0E : Byte) ≠ 0x0F ∧ State.reset.SpLegal ∧ State.reset.sp ≠ 0x0F :=
  ⟨.inr (by decide), .inr (by decide), by decide, .inl rfl, by decide⟩

theorem witness_RetPopsTheResumeAddress :
    State.reset.sp = 0xFF ∧ ({ State.reset with sp := 0 } : State).sp.toNat < 16 ∧
    ({ State.reset with sp := 15 } : State).sp.toNat < 16 := by decide

theorem witness_CallThenRetResumesAfterTheCall :
    State.reset.SpLegal ∧ State.reset.sp ≠ 0x0F ∧ ∃ t, exec (.call 0x300) State.reset = .next t ∧
    ({ t with pc := 0x310, stack := t.stack.set 1 0x312 } : State).sp = t.sp ∧
    ∀ k : Fin 16, k.val = t.sp.toNat →
      ({ t with pc := 0x310, stack := t.stack.set 1 0x312 } : State).stack.get k = t.stack.get k :=
  ⟨.inl rfl, by decide, _, rfl, rfl, by decide⟩

theorem witness_IllegalStackPointerStops :
    (16 ≤ ({ State.reset with sp := 16 } : State).sp.toNat ∧ ({ State.reset with sp := 16 } : State).sp.toNat ≤ 254) ∧
    (16 ≤ ({ State.reset with sp := 254 } : State).sp.toNat ∧
      ({ State.reset with sp := 254 } : State).sp.toNat ≤ 254) := by decide

theorem witness_flag_writers_both_forms : (1 : Nibble) ≠ regF ∧ (15 : Nibble) = regF := by decide

theorem witness_BcdStoresHundredsTensOnes :
    State.reset.mem.wf = true ∧ (memI 0xFFD []).effAddr 2 ≤ 0xFFF ∧ (memI 0xFFE []).effAddr 2 > 0xFFF := by decide

theorem witness_StoreRegistersWritesV0ToVx :
    (memI 0xFF0 []).mem.wf = true ∧ (memI 0xFF0 []).effAddr (15 : Nibble).toNat ≤ 0xFFF ∧
    (memI 0xFF1 []).effAddr (15 : Nibble).toNat > 0xFFF := by decide

theorem witness_LoadRegistersReadsV0ToVx :
    (memI 0xFFF []).effAddr (0 : Nibble).toNat ≤ 0xFFF ∧ (memI 0x1000 []).effAddr (0 : Nibble).toNat > 0xFFF := by
  decide

theorem witness_StoreThenLoadRestoresTheRegisters :
    (memI 0x400 []).mem.wf = true ∧ (memI 0x400 []).effAddr (3 : Nibble).toNat ≤ 0xFFF ∧
    ∃ t, exec (.storeRegs 3) (memI 0x400 []) = .next t ∧ (t.setReg 0 9).i = t.i ∧ (t.setReg 0 9).mem = t.mem :=
  ⟨by decide, by decide, _, rfl, rfl, rfl⟩

theorem witness_StoreIsSeenByTheNextFetch :
    (memI 0x202 []).mem.wf = true ∧ (memI 0x202 []).i.toNat = (memI 0x202 []).pc.toNat + 2 ∧
    (memI 0x202 []).effAddr 1 ≤ 0xFFF ∧ (memI 0x202 []).effAddr (0 : Nibble).toNat ≤ 0xFFF ∧
    completes (.storeRegs 0) (memI 0x202 []) ∧ (memI 0x202 []).effAddr (15 : Nibble).toNat ≤ 0xFFF ∧
    completes (.storeRegs 15) (memI 0x202 []) :=
  ⟨by decide, by decide, by decide, by decide, ⟨_, rfl⟩, by decide, _, rfl⟩

theorem witness_StoreIsSeenByTheNextFetch_bcd :
    let s : State := { memI 0xFFD [] with pc := 0xFFB }
    s.mem.wf = true ∧ s.i.toNat = s.pc.toNat + 2 ∧ s.effAddr 2 ≤ 0xFFF ∧ completes (.ldB 3) s :=
  ⟨by decide, by decide, by decide, _, rfl⟩

theorem witness_DrawXorsTheSpriteAndReportsCollision :
    ((0 : Nibble).toNat = 0 ∨ (memI 0x1000 []).effAddr ((0 : Nibble).toNat - 1) ≤ 0xFFF) ∧
    ((15 : Nibble).toNat = 0 ∨ (memI 0xFF1 []).effAddr ((15 : Nibble).toNat - 1) ≤ 0xFFF) := by decide

theorem witness_DrawBeyondMemoryHalts :
    (2 : Nibble).toNat ≠ 0 ∧ (memI 0xFFF []).effAddr ((2 : Nibble).toNat - 1) > 0xFFF := by decide

theorem witness_DrawTwiceRestoresTheFramebuffer :
    ((1 : Nibble).toNat = 0 ∨ (memI 0x300 [(0x300, 0xC0)]).effAddr ((1 : Nibble).toNat - 1) ≤ 0xFFF) ∧
    ∃ t, exec (.drw 0 1 1) (memI 0x300 [(0x300, 0xC0)]) = .next t ∧ t.i = 0x300 ∧ t.mem = [(0x300, 0xC0)] ∧
      t.reg 0 = 0 ∧ t.reg 1 = 0 := ⟨by decide, _, rfl, by decide⟩

theorem witness_DrawTwiceRestoresTheFramebuffer_heights :
    ((0 : Nibble).toNat = 0 ∨ (memI 0x1000 []).effAddr ((0 : Nibble).toNat - 1) ≤ 0xFFF) ∧
    completes (.drw 0 1 0) (memI 0x1000 []) ∧
    ((15 : Nibble).toNat = 0 ∨ (memI 0xFF1 []).effAddr ((15 : Nibble).toNat - 1) ≤ 0xFFF) ∧
    completes (.drw 0 1 15) (memI 0xFF1 []) := ⟨by decide, ⟨_, rfl⟩, by decide, _, rfl⟩

theorem witness_WaitPollWithoutKeyChangesNothing :
    ({ State.reset with wait := true } : State).Waiting ∧ ({ State.reset with wait := true } : State).keys = 0 :=
  ⟨⟨rfl, rfl⟩, rfl⟩

theorem witness_WaitPollWithKeyCompletesTheWait :
    ({ State.reset with wait := true, keys := 0x0200 } : State).Waiting ∧ (0x0200 : Word) ≠ 0 ∧
    (∀ j, (0x0200 : Word).getLsbD j = decide (j = 9)) ∧ (9 : Nat) < 16 ∧
    ({ State.reset with wait := true, keys := 0x8010 } : State).Waiting ∧ (0x8010 : Word) ≠ 0 := by
  refine ⟨⟨rfl, rfl⟩, by decide, fun j => ?_, by decide, ⟨rfl, rfl⟩, by decide⟩
  by_cases h : j < 16
  · exact (show ∀ j, j < 16 → (0x0200 : Word).getLsbD j = decide (j = 9) by decide) j h
  · have : j ≠ 9 := by omega
    rw [BitVec.getLsbD_of_ge _ _ (by omega)]; simp [this]

theorem witness_InstructionsWriteOnlyTheirElements : completes (.addReg 1 2) State.reset := ⟨_, rfl⟩

theorem witness_InstructionsWriteOnlyTheirRegisters : completes (.loadRegs 2) (memI 0x300 []) := ⟨_, rfl⟩

theorem witness_OnlyResetLeavesHalted :
    haltedState.Inv ∧ haltedState.Halted ∧ haltedState.host.head? ≠ some .reset ∧ ∃ t, step haltedState = .next t :=
  ⟨⟨.inl rfl, by decide, by decide, by decide, by decide, by decide, Nat.succ_pos _, rfl, fun h => nomatch h⟩,
    (fun h => nomatch h), by decide, _, rfl⟩

theorem witness_LoadCopiesTheImageToProgBase :
    State.reset.loadOpen = true ∧ State.reset.mem.wf = true ∧ (List.replicate 0xE00 (0x12 : Byte)).length ≤ 0xE00 := by
  refine ⟨rfl, rfl, ?_⟩
  simp only [List.length_replicate, le_refl]

theorem witness_LoadWordsStoresBigEndian :
    State.reset.loadOpen = true ∧ State.reset.mem.wf = true ∧
    2 * (List.replicate 0x700 (0x1200 : Word)).length ≤ 0xE00 := by
  refine ⟨rfl, rfl, ?_⟩
  simp only [List.length_replicate]; decide

theorem witness_LoadFailsWhenTooLargeOrLate :
    State.reset.loadOpen = true ∧ 0xE00 < (List.replicate 0xE01 (0x12 : Byte)).length ∧
    0xE00 < 2 * (List.replicate 0x701 (0x1200 : Word)).length ∧ haltedState.loadOpen = false := by
  refine ⟨rfl, ?_, ?_, rfl⟩
  · simp only [List.length_replicate]; decide
  · simp only [List.length_replicate]; decide

/-- A suspended machine that meets the invariant. -/
def waitingState : State :=
  { State.reset with wait := true, wreg := 5, ir := 0xF50A, loadOpen := false }

theorem witness_StepKeepsTheInvariant : waitingState.Inv ∧ ∃ t, step waitingState = .next t :=
  ⟨⟨.inl rfl, by decide, by decide, by decide, by decide, fun _ => by decide, Nat.succ_pos _, rfl, fun h => nomatch h⟩,
    _, rfl⟩

theorem witness_StepStopsOnlyOnALateLoad :
    ({ haltedState with host := [.loadRom [0x12]] } : State).Inv ∧
    step { haltedState with host := [.loadRom [0x12]] } = .refused .loadAfterFirstTick :=
  ⟨⟨.inl rfl, by decide, by decide, by decide, by decide, by decide, Nat.succ_pos _, rfl, fun h => nomatch h⟩, rfl⟩

theorem witness_AccessorsReadTheState :
    ({ State.reset with sp := 0 } : State).sp.toNat = (0 : Fin 16).val ∧
    ({ State.reset with sp := 15 } : State).sp.toNat = (15 : Fin 16).val ∧
    ({ State.reset with sp := 15 } : State).SpLegal ∧ State.reset.SpLegal ∧
    (0xFFF : Nat) ≤ 0xFFF ∧ (0xFFF : Nat) < 0x1000 :=
  ⟨by decide, by decide, .inr (by decide), .inl rfl, by decide, by decide⟩

/-- A machine at a jump to itself (T-C1). -/
theorem selfJump_atSelfJump : (withWord 0x1200).AtSelfJump :=
  ⟨⟨rfl, rfl⟩, by decide, 0x200, by decide, by decide⟩

theorem witness_SelfJumpIsKeptForEver :
    let s : State := { withWord 0x1200 with host := [.timerPulse, .tick, .advanceTimers 3, .setKeys 1] }
    s.AtSelfJump ∧ ∀ e ∈ s.host, e = .tick ∨ e = .timerPulse ∨ (∃ n, e = .advanceTimers n) ∨ ∃ keys, e = .setKeys keys := by
  refine ⟨selfJump_atSelfJump, ?_⟩
  intro e he
  simp only [List.mem_cons, List.not_mem_nil, or_false] at he
  rcases he with rfl | rfl | rfl | rfl
  · exact .inr (.inl rfl)
  · exact .inl rfl
  · exact .inr (.inr (.inl ⟨_, rfl⟩))
  · exact .inr (.inr (.inr ⟨_, rfl⟩))

theorem witness_HaltedRunNeverSucceeds :
    ({ haltedState with host := [.timerPulse] } : State).Halted ∧
    ∀ e ∈ ({ haltedState with host := [.timerPulse] } : State).host, e ≠ .reset :=
  ⟨(fun h => nomatch h), by decide⟩

/-! ### The end of a run (R271, T-C1, T-X4) -/

theorem test_ends_at_self_jump : EndsAtSelfJump (withWord 0x1200) (withWord 0x1200) :=
  ⟨0, ⟨rfl, fun j hj => by obtain rfl : j = 0 := by omega
                           exact ⟨_, rfl, fun h => h rfl⟩⟩, selfJump_atSelfJump⟩

theorem test_ends_after_one_tick : ∃ t, EndsAfterTicks 1 { withWord 0x612A with host := [.timerPulse] } t :=
  ⟨_, 2, ⟨rfl, fun j hj => by
    obtain rfl | rfl | rfl : j = 0 ∨ j = 1 ∨ j = 2 := by omega
    all_goals exact ⟨_, rfl, fun h => h rfl⟩⟩, by decide⟩

theorem test_zeroed_memory_ends_in_fault : ∃ t, EndsInFault State.reset t := ⟨_, 1, rfl, fun h => nomatch h⟩

end Sys2Proof.Tests
end

section
/-! SUPPORT. What a row of the opcode table asks of a word, field by field, and that the decoder asks the same
(`30_encoding.md` R62 to R66). -/

namespace Sys2Proof

/-! ### What each mask of R66 keeps of a word -/

/-- The mask of formats NNN, XKK and XYN keeps the family. -/
theorem and_F000_eq_packNnn (w : Word) : w &&& 0xF000 = packNnn (fieldFamily w) 0 := by
  apply BitVec.eq_of_getLsbD_eq; intro i hi
  simp only [BitVec.getLsbD_and, getLsbD_packNnn]
  interval_cases i <;> simp [fieldFamily]

/-- The mask of families 5, 8 and 9 keeps the family and the low nibble. -/
theorem and_F00F_eq_packXyn (w : Word) : w &&& 0xF00F = packXyn (fieldFamily w) 0 0 (fieldN w) := by
  apply BitVec.eq_of_getLsbD_eq; intro i hi
  simp only [BitVec.getLsbD_and, getLsbD_packXyn]
  interval_cases i <;> simp [fieldFamily, fieldN]

/-- The mask of families E and F keeps the family and the low byte. -/
theorem and_F0FF_eq_packXkk (w : Word) : w &&& 0xF0FF = packXkk (fieldFamily w) 0 (fieldKk w) := by
  apply BitVec.eq_of_getLsbD_eq; intro i hi
  simp only [BitVec.getLsbD_and, getLsbD_packXkk]
  interval_cases i <;> simp [fieldFamily, fieldKk]

/-! ### A row matches a word when the fields its mask keeps agree with its value

The premise on the value says that it has no bit outside the mask. -/

namespace OpcodeRow
variable {m : String} {v w : Word}

theorem matchesWord_maskFFFF : matchesWord ⟨m, 0xFFFF, v⟩ w = true ↔ w = v := by
  have hw : w &&& 0xFFFF = w := BitVec.and_allOnes
  rw [matchesWord, hw, beq_iff_eq]

theorem matchesWord_maskF000 (hv : packNnn (fieldFamily v) 0 = v) :
    matchesWord ⟨m, 0xF000, v⟩ w = true ↔ fieldFamily w = fieldFamily v := by
  rw [matchesWord, and_F000_eq_packNnn, beq_iff_eq]
  exact ⟨fun h => by simpa using congrArg fieldFamily h, fun hf => by rw [hf, hv]⟩

theorem matchesWord_maskF00F (hv : packXyn (fieldFamily v) 0 0 (fieldN v) = v) :
    matchesWord ⟨m, 0xF00F, v⟩ w = true ↔ fieldFamily w = fieldFamily v ∧ fieldN w = fieldN v := by
  rw [matchesWord, and_F00F_eq_packXyn, beq_iff_eq]
  exact ⟨fun h => ⟨by simpa using congrArg fieldFamily h, by simpa using congrArg fieldN h⟩,
    fun ⟨hf, hn⟩ => by rw [hf, hn, hv]⟩

theorem matchesWord_maskF0FF (hv : packXkk (fieldFamily v) 0 (fieldKk v) = v) :
    matchesWord ⟨m, 0xF0FF, v⟩ w = true ↔ fieldFamily w = fieldFamily v ∧ fieldKk w = fieldKk v := by
  rw [matchesWord, and_F0FF_eq_packXkk, beq_iff_eq]
  exact ⟨fun h => ⟨by simpa using congrArg fieldFamily h, by simpa using congrArg fieldKk h⟩,
    fun ⟨hf, hk⟩ => by rw [hf, hk, hv]⟩

end OpcodeRow

open OpcodeRow
variable {w : Word} {i : Instr}

/-! ### The decoder answers only instructions of a row that matches -/

theorem matchesWord_row_of_decodeFamily0 (h : decodeFamily0 w = .ok i) : i.row.matchesWord w = true := by
  unfold decodeFamily0 at h
  split_ifs at h with hw hw <;> cases h <;> exact matchesWord_maskFFFF.2 hw

theorem decodeLowNibbleZero_eq_ok_iff {j : Instr} :
    decodeLowNibbleZero w j = .ok i ↔ fieldN w = 0 ∧ j = i := by
  unfold decodeLowNibbleZero
  split
  · next hn => simp only [hn, Except.ok.injEq, true_and]
  · next hn => simp only [hn, reduceCtorEq, false_and]

theorem matchesWord_row_of_decodeFamily8 (hf : (fieldFamily w).toNat = 0x8) (h : decodeFamily8 w = .ok i) :
    i.row.matchesWord w = true := by
  unfold decodeFamily8 at h
  split at h <;> cases h
  all_goals
    next hn =>
    exact (matchesWord_maskF00F (by decide)).2 ⟨BitVec.eq_of_toNat_eq hf, BitVec.eq_of_toNat_eq hn⟩

theorem matchesWord_row_of_decodeFamilyE (hf : (fieldFamily w).toNat = 0xE) (h : decodeFamilyE w = .ok i) :
    i.row.matchesWord w = true := by
  unfold decodeFamilyE at h
  split_ifs at h with hk hk <;> cases h
  all_goals exact (matchesWord_maskF0FF (by decide)).2 ⟨BitVec.eq_of_toNat_eq hf, hk⟩

theorem matchesWord_row_of_decodeFamilyF (hf : (fieldFamily w).toNat = 0xF) (h : decodeFamilyF w = .ok i) :
    i.row.matchesWord w = true := by
  unfold decodeFamilyF at h
  split_ifs at h with hk hk hk hk hk hk hk hk hk <;> cases h
  all_goals exact (matchesWord_maskF0FF (by decide)).2 ⟨BitVec.eq_of_toNat_eq hf, hk⟩

/-- The cases are those of `decode`, counted from 1: family f is case f + 1. -/
theorem matchesWord_row_of_decode (h : decode w = .ok i) : i.row.matchesWord w = true := by
  unfold decode at h
  split at h
  case h_1 => exact matchesWord_row_of_decodeFamily0 h
  case h_9 hf => exact matchesWord_row_of_decodeFamily8 hf h
  case h_15 hf => exact matchesWord_row_of_decodeFamilyE hf h
  case h_16 hf => exact matchesWord_row_of_decodeFamilyF hf h
  case h_6 hf | h_10 hf =>
    obtain ⟨hn, rfl⟩ := decodeLowNibbleZero_eq_ok_iff.1 h
    exact (matchesWord_maskF00F (by decide)).2 ⟨BitVec.eq_of_toNat_eq hf, hn⟩
  case h_17 => cases h
  all_goals
    next hf =>
    cases h
    exact (matchesWord_maskF000 (by decide)).2 (BitVec.eq_of_toNat_eq hf)

/-! ### A word that matches a row decodes to an instruction of it -/

/-- One case per mask of R66; the families with a sub-operation apart. -/
theorem exists_decode_of_matchesWord_row (h : i.row.matchesWord w = true) :
    ∃ j, decode w = .ok j ∧ j.row = i.row := by
  cases i with
  | cls | ret =>
    obtain rfl := matchesWord_maskFFFF.1 h
    exact ⟨_, rfl, rfl⟩
  | jp | call | seImm | sneImm | ldImm | addImm | ldI | jpV0 | rnd | drw =>
    have hf := (matchesWord_maskF000 (by decide)).1 h
    rw [decode, hf]
    exact ⟨_, rfl, rfl⟩
  | seReg | sneReg =>
    obtain ⟨hf, hn⟩ := (matchesWord_maskF00F (by decide)).1 h
    rw [decode, hf]
    exact ⟨_, if_pos hn, rfl⟩
  | ldReg | orReg | andReg | xorReg | addReg | subReg | shr | subn | shl =>
    obtain ⟨hf, hn⟩ := (matchesWord_maskF00F (by decide)).1 h
    have hd : decode w = decodeFamily8 w := by rw [decode, hf]; rfl
    rw [hd, decodeFamily8, hn]
    exact ⟨_, rfl, rfl⟩
  | skp | sknp =>
    obtain ⟨hf, hk⟩ := (matchesWord_maskF0FF (by decide)).1 h
    have hd : decode w = decodeFamilyE w := by rw [decode, hf]; rfl
    rw [hd, decodeFamilyE, hk]
    exact ⟨_, rfl, rfl⟩
  | ldVxDt | ldVxK | ldDtVx | ldStVx | addI | ldF | ldB | storeRegs | loadRegs =>
    obtain ⟨hf, hk⟩ := (matchesWord_maskF0FF (by decide)).1 h
    have hd : decode w = decodeFamilyF w := by rw [decode, hf]; rfl
    rw [hd, decodeFamilyF, hk]
    exact ⟨_, rfl, rfl⟩

/-! ### The opcode table -/

theorem exists_row_eq_of_mem_opcodeTable {r : OpcodeRow} (hr : r ∈ opcodeTable) : ∃ i : Instr, i.row = r := by
  rcases List.mem_append.1 hr with h | h <;>
  · obtain ⟨i, -, hi⟩ := List.mem_map.1 h
    exact ⟨i, hi⟩

theorem matchesWord_iff_exists_decode {r : OpcodeRow} (hr : r ∈ opcodeTable) :
    r.matchesWord w = true ↔ ∃ i, decode w = .ok i ∧ i.row = r := by
  obtain ⟨i, rfl⟩ := exists_row_eq_of_mem_opcodeTable hr
  constructor
  · exact exists_decode_of_matchesWord_row
  · rintro ⟨j, hj, hrow⟩
    rw [← hrow]
    exact matchesWord_row_of_decode hj

/-- Settles O3. No two rows match the same word because a word decodes to one instruction only. -/
theorem decodeFollowsTheOpcodeTable : Obligations.DecodeFollowsTheOpcodeTable := by
  intro w
  refine ⟨fun r hr => matchesWord_iff_exists_decode hr, fun r₁ hr₁ r₂ hr₂ hm₁ hm₂ => ?_⟩
  obtain ⟨i₁, hi₁, rfl⟩ := (matchesWord_iff_exists_decode hr₁).1 hm₁
  obtain ⟨i₂, hi₂, rfl⟩ := (matchesWord_iff_exists_decode hr₂).1 hm₂
  have hi : i₁ = i₂ := Except.ok.inj (hi₁.symm.trans hi₂)
  rw [hi]

end Sys2Proof
end

section
/-! SUPPORT. Control transfer without the stack: the words of families 1, 3, 4 and B, the state each of their
instructions answers, and the frame of an instruction that writes PC only (`41_flow_stack.md` R101, R103 to R105). -/

namespace Sys2Proof

/-! ### The words of the jumps and of the skips with an immediate -/

@[simp] theorem decode_packNnn_eq_jp (nnn : Addr12) : decode (packNnn 0x1 nnn) = .ok (.jp nnn) := by
  rw [decode, fieldFamily_packNnn, fieldNnn_packNnn]
  rfl

@[simp] theorem decode_packNnn_eq_jpV0 (nnn : Addr12) : decode (packNnn 0xB nnn) = .ok (.jpV0 nnn) := by
  rw [decode, fieldFamily_packNnn, fieldNnn_packNnn]
  rfl

@[simp] theorem decode_packXkk_eq_seImm (x : Nibble) (kk : Byte) : decode (packXkk 0x3 x kk) = .ok (.seImm x kk) := by
  rw [decode, fieldFamily_packXkk, fieldX_packXkk, fieldKk_packXkk]
  rfl

@[simp] theorem decode_packXkk_eq_sneImm (x : Nibble) (kk : Byte) : decode (packXkk 0x4 x kk) = .ok (.sneImm x kk) := by
  rw [decode, fieldFamily_packXkk, fieldX_packXkk, fieldKk_packXkk]
  rfl

namespace Machine
variable (s : State)

/-! ### Zero-extension (R63) -/

@[simp] theorem toNat_zext12 (nnn : Addr12) : (zext12 nnn).toNat = nnn.toNat :=
  BitVec.toNat_setWidth_of_le (by decide)

@[simp] theorem toNat_zext8 (b : Byte) : (zext8 b).toNat = b.toNat :=
  BitVec.toNat_setWidth_of_le (by decide)

/-- R103: 12 bits and 8 bits never carry out of 16. -/
theorem toNat_zext12_add_zext8 (nnn : Addr12) (b : Byte) :
    (zext12 nnn + zext8 b).toNat = nnn.toNat + b.toNat := by
  have hnnn : nnn.toNat < 0x1000 := nnn.isLt
  have hb : b.toNat < 0x100 := b.isLt
  rw [BitVec.toNat_add, toNat_zext12, toNat_zext8, Nat.mod_eq_of_lt (by omega)]

/-! ### Writing PC only -/

theorem sameExcept_pc_setPc (p : Word) : SameExcept [.pc] s (s.setPc p) := by
  intro e he
  cases e with
  | pc => exact absurd (List.mem_singleton.2 rfl) he
  | regs => exact s.reg_setPc p
  | mem => exact fun _ => rfl
  | _ => rfl

theorem sameExcept_pc_skipIf (c : Bool) : SameExcept [.pc] s (s.skipIf c) := sameExcept_pc_setPc s _

/-- R108, with the condition as a proposition. -/
theorem State.skipIf_pc_of_iff {c : Bool} {p : Prop} [Decidable p] (h : c = true ↔ p) :
    (s.skipIf c).pc = if p then s.pc + 4 else s.pc + 2 := by
  rw [State.skipIf_pc]
  exact if_congr h rfl rfl

/-! ### What the instructions answer -/

theorem exec_jp (nnn : Addr12) : exec (.jp nnn) s = .next (s.setPc (zext12 nnn)) := rfl

theorem exec_jpV0 (nnn : Addr12) :
    exec (.jpV0 nnn) s = .next (s.setPc (zext12 nnn + zext8 (s.reg 0))) := rfl

theorem exec_seImm (x : Nibble) (kk : Byte) : exec (.seImm x kk) s = .next (s.skipIf (s.reg x == kk)) := rfl

theorem exec_sneImm (x : Nibble) (kk : Byte) : exec (.sneImm x kk) s = .next (s.skipIf (s.reg x != kk)) := rfl

end Machine

open Machine

/-- Settles O11. -/
theorem jumpSetsPcToNnn : Obligations.JumpSetsPcToNnn := fun nnn s =>
  ⟨decode_packNnn_eq_jp nnn, _, exec_jp s nnn, toNat_zext12 nnn, sameExcept_pc_setPc s _⟩

/-- Settles O12. -/
theorem jumpV0AddsV0ToNnn : Obligations.JumpV0AddsV0ToNnn := fun nnn s =>
  ⟨decode_packNnn_eq_jpV0 nnn, _, exec_jpV0 s nnn, toNat_zext12_add_zext8 nnn (s.reg 0), sameExcept_pc_setPc s _⟩

/-- Settles O17. -/
theorem immediateSkipsAdvanceByFourOrTwo : Obligations.ImmediateSkipsAdvanceByFourOrTwo := fun x kk s =>
  ⟨decode_packXkk_eq_seImm x kk, decode_packXkk_eq_sneImm x kk,
    ⟨_, exec_seImm s x kk, s.skipIf_pc_of_iff beq_iff_eq, sameExcept_pc_skipIf s _⟩,
    ⟨_, exec_sneImm s x kk, s.skipIf_pc_of_iff bne_iff_ne, sameExcept_pc_skipIf s _⟩⟩

end Sys2Proof
end

section
/-! SUPPORT. The ALU instructions that write Vx and no flag: the words of families 6, 7 and 8, the state each
instruction answers, and the frame of `State.writeAndAdvance` (`42_alu.md` R122 to R127). -/

namespace Sys2Proof

/-! ### The words of the immediate forms and of the register forms -/

@[simp] theorem decode_packXkk_eq_ldImm (x : Nibble) (kk : Byte) : decode (packXkk 0x6 x kk) = .ok (.ldImm x kk) := by
  rw [decode, fieldFamily_packXkk, fieldX_packXkk, fieldKk_packXkk]
  rfl

@[simp] theorem decode_packXkk_eq_addImm (x : Nibble) (kk : Byte) :
    decode (packXkk 0x7 x kk) = .ok (.addImm x kk) := by
  rw [decode, fieldFamily_packXkk, fieldX_packXkk, fieldKk_packXkk]
  rfl

/-- R64 step 5: the first nibble 8 leaves the word to the low nibble. -/
theorem decode_packXyn_eq_decodeFamily8 (x y n : Nibble) :
    decode (packXyn 0x8 x y n) = decodeFamily8 (packXyn 0x8 x y n) := by
  rw [decode, fieldFamily_packXyn]
  rfl

@[simp] theorem decode_packXyn_eq_ldReg (x y : Nibble) : decode (packXyn 0x8 x y 0x0) = .ok (.ldReg x y) := by
  rw [decode_packXyn_eq_decodeFamily8, decodeFamily8, fieldX_packXyn, fieldY_packXyn, fieldN_packXyn]
  rfl

@[simp] theorem decode_packXyn_eq_orReg (x y : Nibble) : decode (packXyn 0x8 x y 0x1) = .ok (.orReg x y) := by
  rw [decode_packXyn_eq_decodeFamily8, decodeFamily8, fieldX_packXyn, fieldY_packXyn, fieldN_packXyn]
  rfl

@[simp] theorem decode_packXyn_eq_andReg (x y : Nibble) : decode (packXyn 0x8 x y 0x2) = .ok (.andReg x y) := by
  rw [decode_packXyn_eq_decodeFamily8, decodeFamily8, fieldX_packXyn, fieldY_packXyn, fieldN_packXyn]
  rfl

@[simp] theorem decode_packXyn_eq_xorReg (x y : Nibble) : decode (packXyn 0x8 x y 0x3) = .ok (.xorReg x y) := by
  rw [decode_packXyn_eq_decodeFamily8, decodeFamily8, fieldX_packXyn, fieldY_packXyn, fieldN_packXyn]
  rfl

namespace Machine
variable (s : State)

/-! ### Writing one register and going on to the next instruction -/

@[simp] theorem State.reg_writeAndAdvance_same (x : Nibble) (b : Byte) : (s.writeAndAdvance x b).reg x = b :=
  s.reg_setReg_same x b

theorem regsSameExcept_writeAndAdvance (x : Nibble) (b : Byte) : RegsSameExcept [x] s (s.writeAndAdvance x b) :=
  fun r hr => s.reg_setReg_of_ne x b r fun h => hr (List.mem_singleton.2 h)

theorem sameExcept_regs_pc_writeAndAdvance (x : Nibble) (b : Byte) :
    SameExcept [.regs, .pc] s (s.writeAndAdvance x b) := by
  intro e he
  cases e with
  | regs | pc => exact absurd (by decide) he
  | mem => exact fun _ => rfl
  | _ => rfl

/-- What `writeAndAdvance` does beside the value in Vx: VF is a register like the others. -/
theorem State.writeAndAdvance_frame (x : Nibble) (b : Byte) :
    (s.writeAndAdvance x b).pc = s.pc + 2 ∧ RegsSameExcept [x] s (s.writeAndAdvance x b) ∧
      SameExcept [.regs, .pc] s (s.writeAndAdvance x b) :=
  ⟨s.writeAndAdvance_pc x b, regsSameExcept_writeAndAdvance s x b, sameExcept_regs_pc_writeAndAdvance s x b⟩

/-! ### What the instructions answer -/

theorem exec_ldImm (x : Nibble) (kk : Byte) : exec (.ldImm x kk) s = .next (s.writeAndAdvance x kk) := rfl

theorem exec_addImm (x : Nibble) (kk : Byte) :
    exec (.addImm x kk) s = .next (s.writeAndAdvance x (s.reg x + kk)) := rfl

theorem exec_ldReg (x y : Nibble) : exec (.ldReg x y) s = .next (s.writeAndAdvance x (s.reg y)) := rfl

theorem exec_orReg (x y : Nibble) : exec (.orReg x y) s = .next (s.writeAndAdvance x (s.reg x ||| s.reg y)) := rfl

theorem exec_andReg (x y : Nibble) : exec (.andReg x y) s = .next (s.writeAndAdvance x (s.reg x &&& s.reg y)) := rfl

theorem exec_xorReg (x y : Nibble) : exec (.xorReg x y) s = .next (s.writeAndAdvance x (s.reg x ^^^ s.reg y)) := rfl

end Machine

open Machine

/-- Settles O19. -/
theorem immediateLoadAndAddWriteOnlyVx : Obligations.ImmediateLoadAndAddWriteOnlyVx := fun x kk s =>
  ⟨decode_packXkk_eq_ldImm x kk, decode_packXkk_eq_addImm x kk,
    ⟨_, exec_ldImm s x kk, s.reg_writeAndAdvance_same x kk, s.writeAndAdvance_frame x kk⟩,
    ⟨_, exec_addImm s x kk, by rw [State.reg_writeAndAdvance_same, BitVec.toNat_add],
      s.writeAndAdvance_frame x (s.reg x + kk)⟩⟩

/-- Settles O20. Each operation is read off the old operands, so y = x and y = F need no case of their own. -/
theorem registerMoveAndLogicWriteOnlyVx : Obligations.RegisterMoveAndLogicWriteOnlyVx := fun x y s =>
  ⟨decode_packXyn_eq_ldReg x y, decode_packXyn_eq_orReg x y, decode_packXyn_eq_andReg x y,
    decode_packXyn_eq_xorReg x y,
    ⟨_, exec_ldReg s x y, s.reg_writeAndAdvance_same x (s.reg y), s.writeAndAdvance_frame x (s.reg y)⟩,
    ⟨_, exec_orReg s x y, fun k => by rw [State.reg_writeAndAdvance_same, BitVec.getLsbD_or],
      s.writeAndAdvance_frame x (s.reg x ||| s.reg y)⟩,
    ⟨_, exec_andReg s x y, fun k => by rw [State.reg_writeAndAdvance_same, BitVec.getLsbD_and],
      s.writeAndAdvance_frame x (s.reg x &&& s.reg y)⟩,
    ⟨_, exec_xorReg s x y, fun k => by rw [State.reg_writeAndAdvance_same, BitVec.getLsbD_xor],
      s.writeAndAdvance_frame x (s.reg x ^^^ s.reg y)⟩⟩

end Sys2Proof
end

section
/-! SUPPORT. LD I, nnn: the words of family A, the state the instruction answers, and the frame of an instruction
that writes I and goes on to the next one (`43_index_memory.md` R150). -/

namespace Sys2Proof

@[simp] theorem decode_packNnn_eq_ldI (nnn : Addr12) : decode (packNnn 0xA nnn) = .ok (.ldI nnn) := by
  rw [decode, fieldFamily_packNnn, fieldNnn_packNnn]
  rfl

namespace Machine
variable (s : State)

theorem sameExcept_i_pc_setI_advance (w : Word) : SameExcept [.i, .pc] s (s.setI w).advance := by
  intro e he
  cases e with
  | i | pc => exact absurd (by decide) he
  | regs | mem => exact fun _ => rfl
  | _ => rfl

theorem exec_ldI (nnn : Addr12) : exec (.ldI nnn) s = .next (s.setI (zext12 nnn)).advance := rfl

end Machine

open Machine

/-- Settles O25. -/
theorem loadIndexSetsI : Obligations.LoadIndexSetsI := fun nnn s =>
  ⟨decode_packNnn_eq_ldI nnn, _, exec_ldI s nnn, toNat_zext12 nnn, (s.setI (zext12 nnn)).advance_pc,
    sameExcept_i_pc_setI_advance s (zext12 nnn)⟩

end Sys2Proof
end

section
/-! SUPPORT. CLS: its one word, the state it answers, and the frame of an instruction that writes the framebuffer and
goes on to the next one (`44_framebuffer.md` R170). -/

namespace Sys2Proof

@[simp] theorem decode_00E0_eq_cls : decode 0x00E0 = .ok .cls := rfl

namespace Machine
variable (s : State)

theorem sameExcept_fb_pc_withFb_advance (fb : Framebuffer) :
    SameExcept [.fb, .pc] s ({ s with fb := fb } : State).advance := by
  intro e he
  cases e with
  | fb | pc => exact absurd (by decide) he
  | regs | mem => exact fun _ => rfl
  | _ => rfl

theorem exec_cls : exec .cls s = .next ({ s with fb := Framebuffer.clear } : State).advance := rfl

end Machine

open Machine

/-- Settles O33. -/
theorem clsClearsEveryPixel : Obligations.ClsClearsEveryPixel := fun s =>
  ⟨decode_00E0_eq_cls, _, exec_cls s, fun x y _ _ => Framebuffer.pixel_clear x y, State.advance_pc _,
    sameExcept_fb_pc_withFb_advance s Framebuffer.clear⟩

end Sys2Proof
end

section
/-! SUPPORT. The decoder undoes the encoder and the encoder the decoder (`30_encoding.md` R60 to R69). -/

namespace Sys2Proof

/-! ### Decoding what the encoder wrote -/

/-- By format: each packed word gives its fields back, and `decode` reads nothing else. -/
@[simp] theorem decode_encode (i : Instr) : decode (encode i) = .ok i := by
  cases i with
  | cls | ret => rfl
  | jp | call | ldI | jpV0 =>
    rw [encode, decode, fieldFamily_packNnn, fieldNnn_packNnn]
    rfl
  | seImm | sneImm | ldImm | addImm | rnd =>
    rw [encode, decode, fieldFamily_packXkk, fieldX_packXkk, fieldKk_packXkk]
    rfl
  | seReg | sneReg =>
    rw [encode, decode, fieldFamily_packXyn, fieldX_packXyn, fieldY_packXyn]
    exact if_pos (fieldN_packXyn ..)
  | ldReg | orReg | andReg | xorReg | addReg | subReg | shr | subn | shl =>
    rw [encode, decode_packXyn_eq_decodeFamily8, decodeFamily8, fieldX_packXyn, fieldY_packXyn, fieldN_packXyn]
    rfl
  | drw =>
    rw [encode, decode, fieldFamily_packXyn, fieldX_packXyn, fieldY_packXyn, fieldN_packXyn]
    rfl
  | skp | sknp =>
    rw [encode, decode, fieldFamily_packXkk]
    show decodeFamilyE _ = _
    rw [decodeFamilyE, fieldX_packXkk, fieldKk_packXkk]
    rfl
  | ldVxDt | ldVxK | ldDtVx | ldStVx | addI | ldF | ldB | storeRegs | loadRegs =>
    rw [encode, decode, fieldFamily_packXkk]
    show decodeFamilyF _ = _
    rw [decodeFamilyF, fieldX_packXkk, fieldKk_packXkk]
    rfl

/-- Settles O1. -/
theorem decodeOfEncodedBytesIsIdentity : Obligations.DecodeOfEncodedBytesIsIdentity := fun i rest => by
  show decodeBytes (highByte (encode i) :: lowByte (encode i) :: rest) = _
  rw [decodeBytes, wordOfBytes_high_low, decode_encode]

/-! ### A word is its own fields packed, in each format -/

section Fields
variable (w : Word)

theorem packNnn_fields : packNnn (fieldFamily w) (fieldNnn w) = w := by
  apply BitVec.eq_of_getLsbD_eq; intro i hi
  simp only [getLsbD_packNnn, fieldFamily, fieldNnn, BitVec.getLsbD_extractLsb']
  interval_cases i <;> rfl

theorem packXkk_fields : packXkk (fieldFamily w) (fieldX w) (fieldKk w) = w := by
  apply BitVec.eq_of_getLsbD_eq; intro i hi
  simp only [getLsbD_packXkk, fieldFamily, fieldX, fieldKk, BitVec.getLsbD_extractLsb']
  interval_cases i <;> rfl

theorem packXyn_fields : packXyn (fieldFamily w) (fieldX w) (fieldY w) (fieldN w) = w := by
  apply BitVec.eq_of_getLsbD_eq; intro i hi
  simp only [getLsbD_packXyn, fieldFamily, fieldX, fieldY, fieldN, BitVec.getLsbD_extractLsb']
  interval_cases i <;> rfl

end Fields

section Packed
variable {w : Word} {f n : Nibble} {kk : Byte}

theorem packNnn_of_family (hf : (fieldFamily w).toNat = f.toNat) : packNnn f (fieldNnn w) = w := by
  rw [← BitVec.eq_of_toNat_eq hf, packNnn_fields]

theorem packXkk_of_family (hf : (fieldFamily w).toNat = f.toNat) : packXkk f (fieldX w) (fieldKk w) = w := by
  rw [← BitVec.eq_of_toNat_eq hf, packXkk_fields]

theorem packXkk_of_family_kk (hf : (fieldFamily w).toNat = f.toNat) (hk : fieldKk w = kk) :
    packXkk f (fieldX w) kk = w := by
  rw [← hk, packXkk_of_family hf]

theorem packXyn_of_family (hf : (fieldFamily w).toNat = f.toNat) :
    packXyn f (fieldX w) (fieldY w) (fieldN w) = w := by
  rw [← BitVec.eq_of_toNat_eq hf, packXyn_fields]

theorem packXyn_of_family_n (hf : (fieldFamily w).toNat = f.toNat) (hn : fieldN w = n) :
    packXyn f (fieldX w) (fieldY w) n = w := by
  rw [← hn, packXyn_of_family hf]

end Packed

/-! ### Encoding what the decoder answered -/

section EncodeOfDecode
variable {w : Word} {i : Instr}

theorem encode_of_decodeFamily0 (h : decodeFamily0 w = .ok i) : encode i = w := by
  unfold decodeFamily0 at h
  split_ifs at h with hw hw <;> cases h <;> exact hw.symm

theorem encode_of_decodeFamily8 (hf : (fieldFamily w).toNat = 0x8) (h : decodeFamily8 w = .ok i) : encode i = w := by
  unfold decodeFamily8 at h
  split at h <;> cases h
  all_goals
    next hn => exact packXyn_of_family_n hf (BitVec.eq_of_toNat_eq hn)

theorem encode_of_decodeFamilyE (hf : (fieldFamily w).toNat = 0xE) (h : decodeFamilyE w = .ok i) : encode i = w := by
  unfold decodeFamilyE at h
  split_ifs at h with hk hk <;> cases h <;> exact packXkk_of_family_kk hf hk

theorem encode_of_decodeFamilyF (hf : (fieldFamily w).toNat = 0xF) (h : decodeFamilyF w = .ok i) : encode i = w := by
  unfold decodeFamilyF at h
  split_ifs at h with hk hk hk hk hk hk hk hk hk <;> cases h <;> exact packXkk_of_family_kk hf hk

/-- The cases are those of `decode`, counted from 1: family f is case f + 1. -/
theorem encode_of_decode (h : decode w = .ok i) : encode i = w := by
  unfold decode at h
  split at h
  case h_1 => exact encode_of_decodeFamily0 h
  case h_9 hf => exact encode_of_decodeFamily8 hf h
  case h_15 hf => exact encode_of_decodeFamilyE hf h
  case h_16 hf => exact encode_of_decodeFamilyF hf h
  case h_6 hf | h_10 hf =>
    obtain ⟨hn, rfl⟩ := decodeLowNibbleZero_eq_ok_iff.1 h
    exact packXyn_of_family_n hf hn
  case h_2 hf | h_3 hf | h_11 hf | h_12 hf => cases h; exact packNnn_of_family hf
  case h_4 hf | h_5 hf | h_7 hf | h_8 hf | h_13 hf => cases h; exact packXkk_of_family hf
  case h_14 hf => cases h; exact packXyn_of_family hf
  case h_17 => cases h

end EncodeOfDecode

/-- Settles O2. -/
theorem encodeOfDecodedWordIsIdentity : Obligations.EncodeOfDecodedWordIsIdentity := fun _ _ => encode_of_decode

/-- Settles O5. -/
theorem sampleWordsDecodeAsThePatternsSay : Obligations.SampleWordsDecodeAsThePatternsSay := by
  unfold Obligations.SampleWordsDecodeAsThePatternsSay
  decide

end Sys2Proof
end

section
/-! SUPPORT. Frames. An update written as a record update keeps the elements it does not name: said once, for any
list of elements, so that each frame below is checked field by field by `rfl`. -/

namespace Sys2Proof.Machine

/-- `s` with the elements of a list taken from `t`. -/
def State.takeFrom (changed : List Element) (s t : State) : State where
  v := if .regs ∈ changed then t.v else s.v
  i := if .i ∈ changed then t.i else s.i
  pc := if .pc ∈ changed then t.pc else s.pc
  stack := if .stack ∈ changed then t.stack else s.stack
  sp := if .sp ∈ changed then t.sp else s.sp
  dt := if .dt ∈ changed then t.dt else s.dt
  st := if .st ∈ changed then t.st else s.st
  keys := if .keys ∈ changed then t.keys else s.keys
  fb := if .fb ∈ changed then t.fb else s.fb
  wait := if .wait ∈ changed then t.wait else s.wait
  wreg := if .wreg ∈ changed then t.wreg else s.wreg
  fault := if .fault ∈ changed then t.fault else s.fault
  ir := if .ir ∈ changed then t.ir else s.ir
  tacc := if .tacc ∈ changed then t.tacc else s.tacc
  mem := if .mem ∈ changed then t.mem else s.mem
  host := if .host ∈ changed then t.host else s.host
  draws := if .draws ∈ changed then t.draws else s.draws
  loadOpen := if .loadOpen ∈ changed then t.loadOpen else s.loadOpen

variable {changed changed' : List Element} {s t u : State}

/-- A state that is another one but for the elements of a list. For a list and updates written out, the premise is
`rfl`. -/
theorem sameExcept_of_takeFrom (h : t = s.takeFrom changed t) : SameExcept changed s t := by
  intro e he
  cases e with
  | regs =>
    intro r
    have hv : t.v = s.v := (congrArg State.v h).trans (if_neg he)
    rw [State.reg, State.reg, hv]
  | mem =>
    intro a
    have hm : t.mem = s.mem := (congrArg State.mem h).trans (if_neg he)
    rw [hm]
  | i => exact (congrArg State.i h).trans (if_neg he)
  | pc => exact (congrArg State.pc h).trans (if_neg he)
  | stack => exact (congrArg State.stack h).trans (if_neg he)
  | sp => exact (congrArg State.sp h).trans (if_neg he)
  | dt => exact (congrArg State.dt h).trans (if_neg he)
  | st => exact (congrArg State.st h).trans (if_neg he)
  | keys => exact (congrArg State.keys h).trans (if_neg he)
  | fb => exact (congrArg State.fb h).trans (if_neg he)
  | wait => exact (congrArg State.wait h).trans (if_neg he)
  | wreg => exact (congrArg State.wreg h).trans (if_neg he)
  | fault => exact (congrArg State.fault h).trans (if_neg he)
  | ir => exact (congrArg State.ir h).trans (if_neg he)
  | tacc => exact (congrArg State.tacc h).trans (if_neg he)
  | host => exact (congrArg State.host h).trans (if_neg he)
  | draws => exact (congrArg State.draws h).trans (if_neg he)
  | loadOpen => exact (congrArg State.loadOpen h).trans (if_neg he)

theorem SameExcept.refl : SameExcept changed s s := by
  intro e _
  cases e with
  | regs | mem => exact fun _ => rfl
  | _ => rfl

theorem SameExcept.mono (h : SameExcept changed s t) (hsub : changed ⊆ changed') : SameExcept changed' s t :=
  fun e he => h e fun hmem => he (hsub hmem)

theorem SameExcept.trans (h : SameExcept changed s t) (h' : SameExcept changed t u) : SameExcept changed s u := by
  intro e he
  have hst := h e he
  have htu := h' e he
  cases e with
  | regs | mem => exact fun a => (htu a).trans (hst a)
  | _ => exact Eq.trans htu hst

end Sys2Proof.Machine
end

section
/-! SUPPORT. The call stack: the words of `00EE` and `2nnn`, what the two instructions answer at an empty, a full and
an ill-formed SP and otherwise (`41_flow_stack.md` R100, R102, R109). -/

namespace Sys2Proof

namespace Machine
variable {s : State}

/-! ### SP and the depth (`10_state.md` R15) -/

theorem State.toNat_sp_add_one : (s.sp + 1).toNat = (s.sp.toNat + 1) % 256 := BitVec.toNat_add ..

theorem State.toNat_sp_sub_one : (s.sp - 1).toNat = (s.sp.toNat + 255) % 256 := by
  rw [BitVec.toNat_sub, Nat.add_comm]
  rfl

theorem State.stackEmpty_iff : s.stackEmpty = true ↔ s.sp = 0xFF := by
  rw [State.stackEmpty, beq_iff_eq]
  bv_omega

theorem State.stackFull_iff : s.stackFull = true ↔ s.sp = 0x0F := by
  rw [State.stackFull, beq_iff_eq]
  bv_omega

/-- A legal SP that is not full has room for one more entry. -/
theorem State.SpLegal.toNat_sp_add_one_lt (hsp : s.SpLegal) (hfull : s.sp ≠ 0x0F) : (s.sp + 1).toNat < 16 := by
  rcases hsp with hempty | hlt
  · rw [hempty]
    decide
  · have hlt : s.sp.toNat < 16 := hlt
    bv_omega

/-! ### RET -/

theorem exec_ret_of_empty (h : s.sp = 0xFF) : exec .ret s = .next { s with fault := .stackUnderflow } :=
  if_pos (State.stackEmpty_iff.2 h)

theorem exec_ret_of_lt (h : s.sp.toNat < 16) :
    exec .ret s = .next (({ s with sp := s.sp - 1 } : State).setPc s.stack[s.sp.toNat]) := by
  have hempty : ¬ s.stackEmpty = true := fun he => by
    rw [State.stackEmpty_iff.1 he] at h
    exact absurd h (by decide)
  exact (if_neg hempty).trans (dif_pos h)

theorem exec_ret_of_illegal (h16 : 16 ≤ s.sp.toNat) (h254 : s.sp.toNat ≤ 254) :
    exec .ret s = .fault .stackPointerOutOfRange := by
  have hempty : ¬ s.stackEmpty = true := fun he => by
    rw [State.stackEmpty_iff.1 he] at h254
    exact absurd h254 (by decide)
  exact (if_neg hempty).trans (dif_neg (Nat.not_lt.2 h16))

/-! ### CALL -/

/-- The state after `2nnn` with room on the stack (R102). -/
def State.called (s : State) (nnn : Addr12) (h : (s.sp + 1).toNat < 16) : State :=
  ({ s with sp := s.sp + 1, stack := s.stack.set (s.sp + 1).toNat (s.pc + 2) } : State).setPc (zext12 nnn)

theorem exec_call_of_full (nnn : Addr12) (h : s.sp = 0x0F) :
    exec (.call nnn) s = .next { s with fault := .stackOverflow } :=
  if_pos (State.stackFull_iff.2 h)

theorem exec_call_of_room (nnn : Addr12) (h : (s.sp + 1).toNat < 16) :
    exec (.call nnn) s = .next (s.called nnn h) := by
  have hfull : ¬ s.stackFull = true := fun hf => by
    rw [State.stackFull_iff.1 hf] at h
    exact absurd h (by decide)
  exact (if_neg hfull).trans (dif_pos h)

theorem exec_call_of_illegal (nnn : Addr12) (h16 : 16 ≤ s.sp.toNat) (h254 : s.sp.toNat ≤ 254) :
    exec (.call nnn) s = .fault .stackPointerOutOfRange := by
  have hfull : ¬ s.stackFull = true := fun hf => by
    rw [State.stackFull_iff.1 hf] at h16
    exact absurd h16 (by decide)
  have hlt : ¬ (s.sp + 1).toNat < 16 := by
    rw [State.toNat_sp_add_one]
    omega
  exact (if_neg hfull).trans (dif_neg hlt)

theorem State.stack_get_called (nnn : Addr12) (h : (s.sp + 1).toNat < 16) (k : Fin 16) :
    (s.called nnn h).stack.get k = if k.val = (s.sp + 1).toNat then s.pc + 2 else s.stack.get k := by
  show (s.stack.set (s.sp + 1).toNat (s.pc + 2))[k.val] = _
  rw [Vector.getElem_set]
  exact if_congr eq_comm rfl rfl

theorem sameExcept_called (nnn : Addr12) (h : (s.sp + 1).toNat < 16) :
    SameExcept [.pc, .sp, .stack] s (s.called nnn h) := sameExcept_of_takeFrom rfl

end Machine

open Machine

/-- Settles O13. -/
theorem callPushesTheResumeAddress : Obligations.CallPushesTheResumeAddress := by
  intro nnn s hsp
  refine ⟨decode_encode (.call nnn), exec_call_of_full nnn, fun hfull => ?_⟩
  have hroom := hsp.toNat_sp_add_one_lt hfull
  exact ⟨_, exec_call_of_room nnn hroom, toNat_zext12 nnn, State.toNat_sp_add_one,
    State.stack_get_called nnn hroom, sameExcept_called nnn hroom⟩

/-- Settles O14. -/
theorem retPopsTheResumeAddress : Obligations.RetPopsTheResumeAddress := fun _ =>
  ⟨decode_encode .ret, exec_ret_of_empty, fun h =>
    ⟨_, exec_ret_of_lt h, rfl, State.toNat_sp_sub_one, sameExcept_of_takeFrom rfl⟩⟩

/-- Settles O15. RET reads the one entry that CALL pushed. -/
theorem callThenRetResumesAfterTheCall : Obligations.CallThenRetResumesAfterTheCall := by
  intro nnn s t u hsp hfull hcall husp hentry
  have hroom := hsp.toNat_sp_add_one_lt hfull
  rw [exec_call_of_room nnn hroom] at hcall
  cases hcall
  have husp : u.sp = s.sp + 1 := husp
  have hlt : u.sp.toNat < 16 := husp ▸ hroom
  refine ⟨_, exec_ret_of_lt hlt, ?_, ?_, rfl⟩
  · have hk : (⟨u.sp.toNat, hlt⟩ : Fin 16).val = (s.sp + 1).toNat := congrArg BitVec.toNat husp
    have hpushed := hentry ⟨u.sp.toNat, hlt⟩ hk
    rw [State.stack_get_called, if_pos hk] at hpushed
    exact hpushed
  · show u.sp - 1 = s.sp
    rw [husp, BitVec.add_sub_cancel]

/-- Settles O16. -/
theorem illegalStackPointerStops : Obligations.IllegalStackPointerStops := fun nnn _ h16 h254 =>
  ⟨exec_ret_of_illegal h16 h254, exec_call_of_illegal nnn h16 h254⟩

end Sys2Proof
end

section
/-! SUPPORT. The skips that compare two registers or test a key: their words, the state each answers and the key that
a register names (`41_flow_stack.md` R106 to R108, `45_keypad_timers.md` R190 to R192). -/

namespace Sys2Proof

/-! ### Families 5 and 9 (R64 step 4) -/

theorem decode_packXyn_of_family5 (x y n : Nibble) :
    decode (packXyn 0x5 x y n) = decodeLowNibbleZero (packXyn 0x5 x y n) (.seReg x y) := by
  rw [decode, fieldFamily_packXyn, fieldX_packXyn, fieldY_packXyn]
  rfl

theorem decode_packXyn_of_family9 (x y n : Nibble) :
    decode (packXyn 0x9 x y n) = decodeLowNibbleZero (packXyn 0x9 x y n) (.sneReg x y) := by
  rw [decode, fieldFamily_packXyn, fieldX_packXyn, fieldY_packXyn]
  rfl

theorem decodeLowNibbleZero_packXyn (f x y n : Nibble) (i : Instr) :
    decodeLowNibbleZero (packXyn f x y n) i =
      if n = 0 then .ok i else .error (.notImplemented (packXyn f x y n)) := by
  rw [decodeLowNibbleZero, fieldN_packXyn]

namespace Machine
variable (s : State)

theorem exec_seReg (x y : Nibble) : exec (.seReg x y) s = .next (s.skipIf (s.reg x == s.reg y)) := rfl

theorem exec_sneReg (x y : Nibble) : exec (.sneReg x y) s = .next (s.skipIf (s.reg x != s.reg y)) := rfl

theorem exec_skp (x : Nibble) : exec (.skp x) s = .next (s.skipIf (s.keyOfReg x)) := rfl

theorem exec_sknp (x : Nibble) : exec (.sknp x) s = .next (s.skipIf (!s.keyOfReg x)) := rfl

theorem toNat_lowNibble (b : Byte) : (lowNibble b).toNat = b.toNat % 16 := by
  rw [lowNibble, BitVec.extractLsb'_toNat, Nat.shiftRight_zero]

theorem State.keyOfReg_eq (x : Nibble) : s.keyOfReg x = s.keys.getLsbD ((s.reg x).toNat % 16) := by
  rw [State.keyOfReg, State.keyPressed, toNat_lowNibble]

end Machine

open Machine

/-- Settles O18. -/
theorem registerSkipsAdvanceByFourOrTwo : Obligations.RegisterSkipsAdvanceByFourOrTwo := fun x y s =>
  ⟨fun n => (decode_packXyn_of_family5 x y n).trans (decodeLowNibbleZero_packXyn 0x5 x y n _),
    fun n => (decode_packXyn_of_family9 x y n).trans (decodeLowNibbleZero_packXyn 0x9 x y n _),
    ⟨_, exec_seReg s x y, s.skipIf_pc_of_iff beq_iff_eq, sameExcept_pc_skipIf s _⟩,
    ⟨_, exec_sneReg s x y, s.skipIf_pc_of_iff bne_iff_ne, sameExcept_pc_skipIf s _⟩⟩

/-- Settles O37. -/
theorem keySkipsTestTheNamedKey : Obligations.KeySkipsTestTheNamedKey := fun x s =>
  ⟨decode_encode (.skp x), decode_encode (.sknp x),
    ⟨_, exec_skp s x, s.skipIf_pc_of_iff (by rw [State.keyOfReg_eq]), sameExcept_pc_skipIf s _⟩,
    ⟨_, exec_sknp s x, s.skipIf_pc_of_iff (by rw [State.keyOfReg_eq, Bool.not_eq_true']),
      sameExcept_pc_skipIf s _⟩⟩

end Sys2Proof
end

section
/-! SUPPORT. The ALU instructions that write a flag, and RND: the two registers that `State.writeFlaggedAndAdvance`
writes, the value of each flag as a number, and the state each instruction answers (`42_alu.md` R121, R128 to R133). -/

namespace Sys2Proof

namespace Machine
variable (s : State)

/-! ### Writing a result and the flag, and going on -/

theorem State.reg_writeFlaggedAndAdvance_result {x : Nibble} (hx : x ≠ regF) (b f : Byte) :
    (s.writeFlaggedAndAdvance x b f).reg x = b := by
  rw [State.reg_writeFlaggedAndAdvance, if_neg hx, if_pos rfl]

theorem State.reg_writeFlaggedAndAdvance_regF (x : Nibble) (b f : Byte) :
    (s.writeFlaggedAndAdvance x b f).reg regF = f := by
  rw [State.reg_writeFlaggedAndAdvance, if_pos rfl]

theorem regsSameExcept_writeFlaggedAndAdvance (x : Nibble) (b f : Byte) :
    RegsSameExcept [x, regF] s (s.writeFlaggedAndAdvance x b f) := fun r hr => by
  simp only [List.mem_cons, List.not_mem_nil, or_false, not_or] at hr
  rw [State.reg_writeFlaggedAndAdvance, if_neg hr.2, if_neg hr.1]

/-- What `writeFlaggedAndAdvance` does beside the values in Vx and VF. -/
theorem State.writeFlaggedAndAdvance_frame (x : Nibble) (b f : Byte) :
    (s.writeFlaggedAndAdvance x b f).pc = s.pc + 2 ∧ RegsSameExcept [x, regF] s (s.writeFlaggedAndAdvance x b f) ∧
      SameExcept [.regs, .pc] s (s.writeFlaggedAndAdvance x b f) :=
  ⟨rfl, regsSameExcept_writeFlaggedAndAdvance s x b f, sameExcept_of_takeFrom rfl⟩

/-! ### The flags as numbers -/

theorem toNat_flagByte (c : Bool) : (flagByte c).toNat = c.toNat := by
  cases c <;> rfl

theorem toNat_flagByte_decide (p : Prop) [Decidable p] : (flagByte (decide p)).toNat = if p then 1 else 0 := by
  rw [toNat_flagByte]
  by_cases hp : p
  · rw [decide_eq_true hp, if_pos hp, Bool.toNat_true]
  · rw [decide_eq_false hp, if_neg hp, Bool.toNat_false]

theorem toNat_flagByte_getLsbD (b : Byte) (k : Nat) : (flagByte (b.getLsbD k)).toNat = b.toNat / 2 ^ k % 2 := by
  rw [toNat_flagByte, BitVec.getLsbD, Nat.toNat_testBit]

theorem toNat_shiftedOutLow (b : Byte) : (shiftedOutLow b).toNat = b.toNat % 2 := by
  rw [shiftedOutLow, toNat_flagByte_getLsbD, Nat.pow_zero, Nat.div_one]

theorem toNat_shiftedOutHigh (b : Byte) : (shiftedOutHigh b).toNat = b.toNat / 128 := by
  have hb : b.toNat < 256 := b.isLt
  rw [shiftedOutHigh, toNat_flagByte_getLsbD]
  omega

/-! ### The results as numbers -/

theorem toNat_sub_byte (a b : Byte) : (a - b).toNat = (a.toNat + 256 - b.toNat) % 256 := by
  have hb : b.toNat < 256 := b.isLt
  rw [BitVec.toNat_sub]
  omega

theorem toNat_shiftRight_one (b : Byte) : (b >>> 1).toNat = b.toNat / 2 := by
  rw [BitVec.toNat_ushiftRight, Nat.shiftRight_eq_div_pow]

theorem toNat_shiftLeft_one (b : Byte) : (b <<< 1).toNat = b.toNat * 2 % 256 := by
  rw [BitVec.toNat_shiftLeft, Nat.shiftLeft_eq]

/-! ### What the instructions answer -/

theorem exec_addReg (x y : Nibble) : exec (.addReg x y) s =
    .next (s.writeFlaggedAndAdvance x (s.reg x + s.reg y) (carryFlag (s.reg x) (s.reg y))) := rfl

theorem exec_subReg (x y : Nibble) : exec (.subReg x y) s =
    .next (s.writeFlaggedAndAdvance x (s.reg x - s.reg y) (noBorrowFlag (s.reg x) (s.reg y))) := rfl

theorem exec_subn (x y : Nibble) : exec (.subn x y) s =
    .next (s.writeFlaggedAndAdvance x (s.reg y - s.reg x) (noBorrowFlag (s.reg y) (s.reg x))) := rfl

theorem exec_shr (x y : Nibble) : exec (.shr x y) s =
    .next (s.writeFlaggedAndAdvance x (s.reg x >>> 1) (shiftedOutLow (s.reg x))) := rfl

theorem exec_shl (x y : Nibble) : exec (.shl x y) s =
    .next (s.writeFlaggedAndAdvance x (s.reg x <<< 1) (shiftedOutHigh (s.reg x))) := rfl

theorem exec_rnd (x : Nibble) (kk : Byte) : exec (.rnd x kk) s =
    .next (({ s with draws := s.draws + 1 } : State).writeAndAdvance x (Config.rnd s.draws &&& kk)) := rfl

end Machine

open Machine

/-- Settles O21. -/
theorem addWritesSumThenCarry : Obligations.AddWritesSumThenCarry := fun x y s =>
  ⟨decode_encode (.addReg x y), _, exec_addReg s x y,
    fun hx => by rw [s.reg_writeFlaggedAndAdvance_result hx, BitVec.toNat_add],
    by rw [State.reg_writeFlaggedAndAdvance_regF, carryFlag, toNat_flagByte_decide],
    s.writeFlaggedAndAdvance_frame x _ _⟩

/-- Settles O22. -/
theorem subtractionsWriteDifferenceThenNoBorrow : Obligations.SubtractionsWriteDifferenceThenNoBorrow := fun x y s =>
  ⟨decode_encode (.subReg x y), decode_encode (.subn x y),
    ⟨_, exec_subReg s x y,
      fun hx => by rw [s.reg_writeFlaggedAndAdvance_result hx, toNat_sub_byte],
      by rw [State.reg_writeFlaggedAndAdvance_regF, noBorrowFlag, toNat_flagByte_decide],
      s.writeFlaggedAndAdvance_frame x _ _⟩,
    ⟨_, exec_subn s x y,
      fun hx => by rw [s.reg_writeFlaggedAndAdvance_result hx, toNat_sub_byte],
      by rw [State.reg_writeFlaggedAndAdvance_regF, noBorrowFlag, toNat_flagByte_decide],
      s.writeFlaggedAndAdvance_frame x _ _⟩⟩

/-- Settles O23. -/
theorem shiftsWriteResultThenBitOut : Obligations.ShiftsWriteResultThenBitOut := fun x y s =>
  ⟨decode_encode (.shr x y), decode_encode (.shl x y),
    ⟨_, exec_shr s x y,
      fun hx => by rw [s.reg_writeFlaggedAndAdvance_result hx, toNat_shiftRight_one],
      by rw [State.reg_writeFlaggedAndAdvance_regF, toNat_shiftedOutLow],
      s.writeFlaggedAndAdvance_frame x _ _⟩,
    ⟨_, exec_shl s x y,
      fun hx => by rw [s.reg_writeFlaggedAndAdvance_result hx, toNat_shiftLeft_one],
      by rw [State.reg_writeFlaggedAndAdvance_regF, toNat_shiftedOutHigh],
      s.writeFlaggedAndAdvance_frame x _ _⟩⟩

/-- Settles O24. -/
theorem randomByteIsMasked : Obligations.RandomByteIsMasked := fun x kk s =>
  ⟨decode_encode (.rnd x kk), _, exec_rnd s x kk,
    fun k => by rw [State.reg_writeAndAdvance_same, BitVec.getLsbD_and],
    rfl, rfl, regsSameExcept_writeAndAdvance _ x _, sameExcept_of_takeFrom rfl⟩

end Sys2Proof
end

section
/-! SUPPORT. The timers: the three moves, a pulse, and `AdvanceTimers` as an iterated pulse; with them the entry into the
wait and the host's `SetKeys` (`45_keypad_timers.md` R193, R196 to R198, R208, R209, `10_state.md` R18). -/

namespace Sys2Proof

namespace Machine
variable (s : State)

theorem exec_ldVxDt (x : Nibble) : exec (.ldVxDt x) s = .next (s.writeAndAdvance x s.dt) := rfl

theorem exec_ldDtVx (x : Nibble) : exec (.ldDtVx x) s = .next ({ s with dt := s.reg x } : State).advance := rfl

theorem exec_ldStVx (x : Nibble) : exec (.ldStVx x) s = .next ({ s with st := s.reg x } : State).advance := rfl

theorem exec_ldVxK (x : Nibble) : exec (.ldVxK x) s = .next { s with wait := true, wreg := x } := rfl

theorem sameExcept_timerPulse : SameExcept [.dt, .st] s (timerPulse s) := sameExcept_of_takeFrom rfl

theorem sameExcept_advanceTimers (elapsed : Nat) : SameExcept [.dt, .st, .tacc] s (advanceTimers elapsed s) :=
  sameExcept_of_takeFrom rfl

theorem sameExcept_setKeys (k : Word) : SameExcept [.keys] s (setKeys k s) := sameExcept_of_takeFrom rfl

theorem timerAfter_zero (t : Byte) : timerAfter t 0 = t :=
  BitVec.eq_of_toNat_eq (toNat_timerAfter t 0)

theorem decrementTimer_timerAfter (t : Byte) (k : Nat) : decrementTimer (timerAfter t k) = timerAfter t (k + 1) := by
  apply BitVec.eq_of_toNat_eq
  rw [toNat_decrementTimer, toNat_timerAfter, toNat_timerAfter, Nat.sub_sub]

/-- So many pulses take so much from each timer at once (R209). -/
theorem iterate_timerPulse (k : Nat) :
    timerPulse^[k] s = { s with dt := timerAfter s.dt k, st := timerAfter s.st k } := by
  induction k with
  | zero => rw [timerAfter_zero, timerAfter_zero, Function.iterate_zero, id]
  | succ k ih =>
    rw [Function.iterate_succ_apply', ih, timerPulse, decrementTimer_timerAfter, decrementTimer_timerAfter]

theorem timerPeriod_pos : 0 < Config.timerPeriod := Nat.succ_pos _

end Machine

open Machine

/-- Settles O38. -/
theorem waitForKeyEntersSuspension : Obligations.WaitForKeyEntersSuspension := fun x s =>
  ⟨decode_encode (.ldVxK x), _, exec_ldVxK s x, rfl, rfl, sameExcept_of_takeFrom rfl⟩

/-- Settles O41. -/
theorem timerMovesCopyTheByte : Obligations.TimerMovesCopyTheByte := fun x s =>
  ⟨decode_encode (.ldVxDt x), decode_encode (.ldDtVx x), decode_encode (.ldStVx x),
    ⟨_, exec_ldVxDt s x, s.reg_writeAndAdvance_same x s.dt, s.writeAndAdvance_frame x s.dt⟩,
    ⟨_, exec_ldDtVx s x, rfl, rfl, sameExcept_of_takeFrom rfl⟩,
    ⟨_, exec_ldStVx s x, rfl, rfl, sameExcept_of_takeFrom rfl⟩⟩

/-- Settles O42. -/
theorem timerPulseDecrementsBothTimers : Obligations.TimerPulseDecrementsBothTimers := fun s =>
  ⟨_, rfl, toNat_decrementTimer s.dt, toNat_decrementTimer s.st, sameExcept_timerPulse s⟩

/-- Settles O43. -/
theorem advanceTimersIsThatManyPulses : Obligations.AdvanceTimersIsThatManyPulses := fun elapsed s =>
  ⟨by rw [iterate_timerPulse]; rfl, Nat.mod_lt _ timerPeriod_pos⟩

/-- Settles O47. -/
theorem setKeysReplacesTheKeys : Obligations.SetKeysReplacesTheKeys := fun k s =>
  ⟨_, rfl, rfl, sameExcept_setKeys s k⟩

end Sys2Proof
end

section
/-! SUPPORT. The index register and the memory instructions: what each answers inside and beyond the bounds, what a store
at I leaves to be read, what a load at I leaves in the registers (`43_index_memory.md` R151 to R156, `20_memory.md` R48,
R53). -/

namespace Sys2Proof

namespace Machine
variable {s : State} {x : Nibble}

/-! ### ADD I and LD F -/

theorem exec_addI (s : State) (x : Nibble) : exec (.addI x) s = .next (s.setI (s.i + zext8 (s.reg x))).advance := rfl

theorem exec_ldF (s : State) (x : Nibble) :
    exec (.ldF x) s = .next (s.setI (glyphAddr (lowNibble (s.reg x)))).advance := rfl

theorem toNat_add_zext8 (w : Word) (b : Byte) : (w + zext8 b).toNat = (w.toNat + b.toNat) % 65536 := by
  rw [BitVec.toNat_add, toNat_zext8]

/-- The font lies far below 2^16, so the address of a glyph does not wrap. -/
theorem toNat_glyphAddr (d : Nibble) : (glyphAddr d).toNat = Config.fontBase.val + 5 * d.toNat := by
  have hbase : Config.fontBase.val < 0x1B1 := Config.fontBase.isLt
  have hd : d.toNat < 16 := d.isLt
  rw [glyphAddr, BitVec.toNat_ofNat]
  exact Nat.mod_eq_of_lt (by simp only [Config.fontStride]; omega)

/-! ### The bounds check at I (R48) -/

theorem inBounds_effAddr_iff (k : Nat) : inBounds (s.effAddr 0) (k + 1) = true ↔ s.effAddr k ≤ 0xFFF := by
  rw [inBounds_iff, State.effAddr, State.effAddr]
  omega

theorem inBounds_effAddr_of_le {k : Nat} (h : s.effAddr k ≤ 0xFFF) : inBounds (s.effAddr 0) (k + 1) = true :=
  (inBounds_effAddr_iff k).2 h

theorem not_inBounds_effAddr_of_gt {k : Nat} (h : 0xFFF < s.effAddr k) : ¬ inBounds (s.effAddr 0) (k + 1) = true :=
  fun hin => absurd ((inBounds_effAddr_iff k).1 hin) (Nat.not_le.2 h)

/-! ### What the memory instructions answer -/

theorem exec_ldB_of_le (h : s.effAddr 2 ≤ 0xFFF) :
    exec (.ldB x) s = .next (s.storeBytes (s.effAddr 0) (decimalDigits (s.reg x))).advance :=
  if_pos (inBounds_effAddr_of_le h)

theorem exec_ldB_of_gt (h : 0xFFF < s.effAddr 2) : exec (.ldB x) s = .next { s with fault := .memoryBounds } :=
  if_neg (not_inBounds_effAddr_of_gt h)

theorem exec_storeRegs_of_le (h : s.effAddr x.toNat ≤ 0xFFF) :
    exec (.storeRegs x) s = .next (s.storeBytes (s.effAddr 0) (s.regsUpTo x)).advance :=
  if_pos (inBounds_effAddr_of_le h)

theorem exec_storeRegs_of_gt (h : 0xFFF < s.effAddr x.toNat) :
    exec (.storeRegs x) s = .next { s with fault := .memoryBounds } :=
  if_neg (not_inBounds_effAddr_of_gt h)

/-- V0 to Vx loaded from I on (R155). -/
def State.loaded (s : State) (x : Nibble) : State :=
  { s with v := writeRegsFrom 0 (s.mem.readBytes (s.effAddr 0) (regCount x)) s.v }

theorem exec_loadRegs_of_le (h : s.effAddr x.toNat ≤ 0xFFF) : exec (.loadRegs x) s = .next (s.loaded x).advance :=
  if_pos (inBounds_effAddr_of_le h)

theorem exec_loadRegs_of_gt (h : 0xFFF < s.effAddr x.toNat) :
    exec (.loadRegs x) s = .next { s with fault := .memoryBounds } :=
  if_neg (not_inBounds_effAddr_of_gt h)

/-! ### Stores at I -/

section Store
variable {bs : List Byte} {k : Nat} (hwf : s.mem.wf = true) (hlen : bs.length = k + 1) (hk : s.effAddr k ≤ 0xFFF)
include hwf hlen hk

theorem read_storeBytes_effAddr (a : Nat) :
    (s.storeBytes (s.effAddr 0) bs).mem.read a =
      if s.effAddr 0 ≤ a ∧ a < s.effAddr 0 + (k + 1) then bs.getD (a - s.effAddr 0) 0 else s.mem.read a := by
  have hin : s.effAddr 0 + bs.length ≤ 0x1000 := by
    simp only [State.effAddr] at hk ⊢
    omega
  rw [State.storeBytes_mem, Memory.read_writeBytes hwf hin, hlen]

theorem read_storeBytes_of_le {r : Nat} (hr : r ≤ k) :
    (s.storeBytes (s.effAddr 0) bs).mem.read (s.effAddr r) = bs.getD r 0 := by
  have hsub : s.effAddr r - s.effAddr 0 = r := by
    simp only [State.effAddr]
    omega
  rw [read_storeBytes_effAddr hwf hlen hk, if_pos (by simp only [State.effAddr]; omega), hsub]

theorem read_storeBytes_outside (a : Nat) (ha : a < s.effAddr 0 ∨ s.effAddr k < a) :
    (s.storeBytes (s.effAddr 0) bs).mem.read a = s.mem.read a := by
  rw [read_storeBytes_effAddr hwf hlen hk, if_neg (by simp only [State.effAddr] at ha ⊢; omega)]

end Store

theorem sameExcept_storeBytes_advance (a : Nat) (bs : List Byte) :
    SameExcept [.mem, .pc] s (s.storeBytes a bs).advance := sameExcept_of_takeFrom rfl

theorem getD_regsUpTo_toNat {r : Nibble} (hr : r.toNat ≤ x.toNat) : (s.regsUpTo x).getD r.toNat 0 = s.reg r :=
  State.getD_regsUpTo s x r.toNat (Nat.lt_succ_of_le hr) r.isLt

/-- What `Fx55` leaves at I + r. -/
theorem read_storeRegs (hwf : s.mem.wf = true) (hx : s.effAddr x.toNat ≤ 0xFFF) {r : Nibble}
    (hr : r.toNat ≤ x.toNat) : (s.storeBytes (s.effAddr 0) (s.regsUpTo x)).mem.read (s.effAddr r.toNat) = s.reg r := by
  rw [read_storeBytes_of_le hwf (State.length_regsUpTo s x) hx hr, getD_regsUpTo_toNat hr]

/-! ### The digits of `Fx33` -/

section Digits
variable (hwf : s.mem.wf = true) (h : s.effAddr 2 ≤ 0xFFF)
include hwf h

theorem read_ldB_hundreds :
    ((s.storeBytes (s.effAddr 0) (decimalDigits (s.reg x))).mem.read (s.effAddr 0)).toNat = (s.reg x).toNat / 100 := by
  have hb : (s.reg x).toNat < 256 := (s.reg x).isLt
  rw [read_storeBytes_of_le hwf rfl h (by decide)]
  exact Nat.mod_eq_of_lt (by omega)

theorem read_ldB_tens :
    ((s.storeBytes (s.effAddr 0) (decimalDigits (s.reg x))).mem.read (s.effAddr 1)).toNat =
      (s.reg x).toNat / 10 % 10 := by
  rw [read_storeBytes_of_le hwf rfl h (by decide)]
  exact Nat.mod_eq_of_lt (by omega)

theorem read_ldB_ones :
    ((s.storeBytes (s.effAddr 0) (decimalDigits (s.reg x))).mem.read (s.effAddr 2)).toNat = (s.reg x).toNat % 10 := by
  rw [read_storeBytes_of_le hwf rfl h (by decide)]
  exact Nat.mod_eq_of_lt (by omega)

end Digits

/-! ### Loads at I -/

theorem State.reg_withV (s : State) (v : Vector Byte 16) (r : Nibble) :
    ({ s with v := v } : State).reg r = v[r.toNat]'r.isLt := rfl

theorem State.reg_loaded (s : State) (x r : Nibble) :
    (s.loaded x).reg r = if r.toNat ≤ x.toNat then s.mem.read (s.effAddr r.toNat) else s.reg r := by
  rw [State.loaded, State.reg_withV, getElem_writeRegsFrom, Memory.readBytes_length, regCount]
  by_cases hr : r.toNat ≤ x.toNat
  · rw [if_pos (by omega), if_pos hr, Memory.getD_readBytes _ _ _ _ (by omega)]
    rfl
  · rw [if_neg (by omega), if_neg hr]
    rfl

theorem sameExcept_loaded_advance (s : State) (x : Nibble) : SameExcept [.regs, .pc] s (s.loaded x).advance :=
  sameExcept_of_takeFrom rfl

/-! ### The fetch (`40_dispatch.md` R83) -/

theorem fetch_of_le (h : s.pc.toNat ≤ 0xFFE) : fetch s = some s.wordAtPc :=
  if_pos ((inBounds_iff _ _).2 (.inr (by omega)))

theorem fetch_of_gt (h : 0xFFE < s.pc.toNat) : fetch s = none :=
  if_neg fun hin => absurd ((inBounds_iff _ _).1 hin) (by omega)

/-- The fetch right after a store two bytes below I reads the bytes at I and I + 1 (R53). -/
theorem fetch_storeBytes_advance (a : Nat) (bs : List Byte) (hi : s.i.toNat = s.pc.toNat + 2)
    (h : s.effAddr 1 ≤ 0xFFF) : fetch (s.storeBytes a bs).advance = some (wordOfBytes
      ((s.storeBytes a bs).mem.read (s.effAddr 0)) ((s.storeBytes a bs).mem.read (s.effAddr 1))) := by
  have hadv : (s.storeBytes a bs).advance.pc.toNat = s.i.toNat := by
    rw [State.advance_pc, State.storeBytes_pc]
    bv_omega
  rw [fetch_of_le (by simp only [State.effAddr] at h; omega), State.wordAtPc, hadv]
  rfl

theorem read_storeRegs_one (hwf : s.mem.wf = true) (hx : s.effAddr x.toNat ≤ 0xFFF) :
    (s.storeBytes (s.effAddr 0) (s.regsUpTo x)).mem.read (s.effAddr 1) =
      if x = 0 then s.mem.read (s.effAddr 1) else s.reg 1 := by
  split
  · next hx0 =>
    subst hx0
    exact read_storeBytes_outside hwf (State.length_regsUpTo s 0) hx _ (.inr (Nat.lt_succ_self _))
  · next hx0 =>
    exact read_storeRegs hwf hx (r := 1) (Nat.pos_of_ne_zero fun h => hx0 (BitVec.eq_of_toNat_eq h))

end Machine

open Machine

/-- Settles O26. -/
theorem addIndexIsSixteenBitsWide : Obligations.AddIndexIsSixteenBitsWide := fun x s =>
  ⟨decode_encode (.addI x), _, exec_addI s x, toNat_add_zext8 s.i (s.reg x), rfl, sameExcept_i_pc_setI_advance s _⟩

/-- Settles O27. -/
theorem glyphAddressUsesTheLowNibble : Obligations.GlyphAddressUsesTheLowNibble := fun x s =>
  ⟨decode_encode (.ldF x), _, exec_ldF s x,
    by rw [State.advance_i, State.setI_i, toNat_glyphAddr, toNat_lowNibble], rfl, sameExcept_i_pc_setI_advance s _⟩

/-- Settles O28. -/
theorem bcdStoresHundredsTensOnes : Obligations.BcdStoresHundredsTensOnes := fun x _ hwf =>
  ⟨decode_encode (.ldB x), exec_ldB_of_gt, fun h =>
    ⟨_, exec_ldB_of_le h, read_ldB_hundreds hwf h, read_ldB_tens hwf h, read_ldB_ones hwf h,
      read_storeBytes_outside hwf rfl h, rfl, sameExcept_storeBytes_advance _ _⟩⟩

/-- Settles O29. -/
theorem storeRegistersWritesV0ToVx : Obligations.StoreRegistersWritesV0ToVx := fun x s hwf =>
  ⟨decode_encode (.storeRegs x), exec_storeRegs_of_gt, fun h =>
    ⟨_, exec_storeRegs_of_le h, fun _ => read_storeRegs hwf h,
      read_storeBytes_outside hwf (State.length_regsUpTo s x) h, rfl, sameExcept_storeBytes_advance _ _⟩⟩

/-- Settles O30. -/
theorem loadRegistersReadsV0ToVx : Obligations.LoadRegistersReadsV0ToVx := fun x s =>
  ⟨decode_encode (.loadRegs x), exec_loadRegs_of_gt, fun h =>
    ⟨_, exec_loadRegs_of_le h, s.reg_loaded x, rfl, sameExcept_loaded_advance s x⟩⟩

/-- Settles O31. -/
theorem storeThenLoadRestoresTheRegisters : Obligations.StoreThenLoadRestoresTheRegisters := by
  intro x s t u hwf hx hstore hi hmem
  rw [exec_storeRegs_of_le hx] at hstore
  cases hstore
  have heff (k : Nat) : u.effAddr k = s.effAddr k := by
    rw [State.effAddr, hi]
    rfl
  refine ⟨_, exec_loadRegs_of_le ((heff x.toNat).trans_le hx), fun r hr => ?_⟩
  calc (u.loaded x).reg r
      = u.mem.read (u.effAddr r.toNat) := by rw [State.reg_loaded, if_pos hr]
    _ = (s.storeBytes (s.effAddr 0) (s.regsUpTo x)).mem.read (s.effAddr r.toNat) := by rw [heff, hmem]; rfl
    _ = s.reg r := read_storeRegs hwf hx hr

/-- Settles O32. -/
theorem storeIsSeenByTheNextFetch : Obligations.StoreIsSeenByTheNextFetch := by
  intro x s t hwf hi
  constructor
  · intro h1 hx hexec
    rw [exec_storeRegs_of_le hx] at hexec
    cases hexec
    have hfirst := read_storeRegs hwf hx (r := 0) (Nat.zero_le _)
    rw [fetch_storeBytes_advance _ _ hi h1, read_storeRegs_one hwf hx]
    exact congrArg (fun b => some (wordOfBytes b _)) hfirst
  · intro h2 hexec
    rw [exec_ldB_of_le h2] at hexec
    cases hexec
    refine ⟨_, fetch_storeBytes_advance _ _ hi ((Nat.le_succ _).trans h2), ?_, ?_⟩
    · rw [highByte_wordOfBytes, read_ldB_hundreds hwf h2]
    · rw [lowByte_wordOfBytes, read_ldB_tens hwf h2]

end Sys2Proof
end

section
/-! SUPPORT. DRW. A draw inverts a set of pixels, each once, and notes a collision when one of them was set. Sets that
do not meet compose, and the eight columns of a row and the rows of a sprite do not meet (`44_framebuffer.md` R171 to
R174). -/

namespace Sys2Proof

namespace Machine

/-! ### Inverting a set of pixels -/

/-- The second canvas is the first with the pixels of a set inverted, and with a collision noted when one of them was
set. -/
structure Canvas.Inverts (cv cv' : Canvas) (lit : Nat → Nat → Prop) : Prop where
  pixel_eq_iff : ∀ px py, cv'.fb.pixel px py = cv.fb.pixel px py ↔ ¬ lit px py
  coll_iff : cv'.coll = true ↔ cv.coll = true ∨ ∃ px py, lit px py ∧ cv.fb.pixel px py = true

namespace Canvas.Inverts
variable {a b c : Canvas} {lit lit₁ lit₂ : Nat → Nat → Prop} {px py : Nat}

theorem pixel_of_lit (h : Inverts a b lit) (hl : lit px py) : b.fb.pixel px py = !a.fb.pixel px py :=
  Bool.eq_not.2 fun he => (h.pixel_eq_iff px py).1 he hl

theorem pixel_of_not_lit (h : Inverts a b lit) (hl : ¬ lit px py) : b.fb.pixel px py = a.fb.pixel px py :=
  (h.pixel_eq_iff px py).2 hl

theorem of_empty (h : ∀ px py, ¬ lit px py) : Inverts a a lit where
  pixel_eq_iff px py := ⟨fun _ => h px py, fun _ => rfl⟩
  coll_iff := ⟨.inl, fun hc => hc.elim id fun ⟨px, py, hl, _⟩ => absurd hl (h px py)⟩

theorem of_toggle {x y : Nat} (hx : x < 64) (hy : y < 32) (h : ∀ px py, lit px py ↔ px = x ∧ py = y) :
    Inverts a (a.toggle x y) lit where
  pixel_eq_iff px py := by
    rw [h, Canvas.toggle, Framebuffer.pixel_flip a.fb hx hy]
    split
    · next he =>
      obtain ⟨rfl, rfl⟩ := he
      simp
    · next he => exact ⟨fun _ => he, fun _ => rfl⟩
  coll_iff := by
    rw [Canvas.toggle, Bool.or_eq_true]
    refine or_congr_right ⟨fun hp => ⟨x, y, (h x y).2 ⟨rfl, rfl⟩, hp⟩, ?_⟩
    rintro ⟨px, py, hl, hp⟩
    obtain ⟨rfl, rfl⟩ := (h px py).1 hl
    exact hp

/-- Disjoint sets one after the other: the second canvas holds the first's pixels wherever the second set lies. -/
theorem comp (h₁ : Inverts a b lit₁) (h₂ : Inverts b c lit₂)
    (hdisj : ∀ px py, lit₁ px py → ¬ lit₂ px py)
    (hlit : ∀ px py, lit px py ↔ lit₁ px py ∨ lit₂ px py) : Inverts a c lit where
  pixel_eq_iff px py := by
    rw [hlit]
    by_cases hl₁ : lit₁ px py
    · rw [h₂.pixel_of_not_lit (hdisj px py hl₁), h₁.pixel_of_lit hl₁]
      simp [hl₁]
    · rw [← h₁.pixel_of_not_lit hl₁, h₂.pixel_eq_iff]
      simp [hl₁]
  coll_iff := by
    have hkeep (px py : Nat) (hl₂ : lit₂ px py) : b.fb.pixel px py = a.fb.pixel px py :=
      h₁.pixel_of_not_lit fun hl₁ => hdisj px py hl₁ hl₂
    rw [h₂.coll_iff, h₁.coll_iff, or_assoc]
    refine or_congr_right ⟨?_, ?_⟩
    · rintro (⟨px, py, hl, hp⟩ | ⟨px, py, hl, hp⟩)
      · exact ⟨px, py, (hlit px py).2 (.inl hl), hp⟩
      · exact ⟨px, py, (hlit px py).2 (.inr hl), hkeep px py hl ▸ hp⟩
    · rintro ⟨px, py, hl, hp⟩
      rcases (hlit px py).1 hl with hl₁ | hl₂
      · exact .inl ⟨px, py, hl₁, hp⟩
      · exact .inr ⟨px, py, hl₂, (hkeep px py hl₂).trans hp⟩

end Canvas.Inverts

/-! ### The columns of a row -/

/-- The pixels under the 1 bits of the columns `c`, ..., `c + k - 1` of a sprite row. -/
def litColumns (b : Byte) (x0 y c k px py : Nat) : Prop :=
  ∃ j, c ≤ j ∧ j < c + k ∧ b.getLsbD (7 - j) = true ∧ px = (x0 + j) % 64 ∧ py = y

theorem inverts_drawColumns (b : Byte) (x0 : Nat) {y : Nat} (hy : y < 32) {c k : Nat} (h8 : c + k ≤ 8) (cv : Canvas) :
    cv.Inverts (Canvas.drawColumns b x0 y c k cv) (litColumns b x0 y c k) := by
  induction k generalizing c cv with
  | zero => exact .of_empty fun px py ⟨j, hcj, hjc, _⟩ => by omega
  | succ k ih =>
    rw [Canvas.drawColumns]
    refine .comp (lit₁ := litColumns b x0 y c 1) ?_ (ih (by omega) _) ?_ ?_
    · split
      · next hbit =>
        refine .of_toggle (Nat.mod_lt _ (by decide)) hy fun px py => ⟨?_, ?_⟩
        · rintro ⟨j, hcj, hjc, -, hpx, hpy⟩
          obtain rfl : j = c := by omega
          exact ⟨hpx, hpy⟩
        · rintro ⟨hpx, hpy⟩
          exact ⟨c, le_rfl, Nat.lt_succ_self c, hbit, hpx, hpy⟩
      · next hbit =>
        refine .of_empty fun px py ⟨j, hcj, hjc, hb, _⟩ => hbit ?_
        obtain rfl : j = c := by omega
        exact hb
    · rintro px py ⟨j, hcj, hjc, -, hpx, -⟩ ⟨j', hcj', hjc', -, hpx', -⟩
      omega
    · intro px py
      constructor
      · rintro ⟨j, hcj, hjc, hrest⟩
        rcases Nat.lt_or_ge j (c + 1) with hlt | hge
        · exact .inl ⟨j, hcj, hlt, hrest⟩
        · exact .inr ⟨j, hge, by omega, hrest⟩
      · rintro (⟨j, hcj, hjc, hrest⟩ | ⟨j, hcj, hjc, hrest⟩)
        · exact ⟨j, hcj, by omega, hrest⟩
        · exact ⟨j, by omega, by omega, hrest⟩

/-! ### The rows of a sprite -/

/-- The pixels under the 1 bits of sprite rows drawn from row `y0` on. -/
def litRows (x0 y0 : Nat) (bs : List Byte) (px py : Nat) : Prop :=
  ∃ r c, r < bs.length ∧ c < 8 ∧ (bs.getD r 0).getLsbD (7 - c) = true ∧ px = (x0 + c) % 64 ∧ py = (y0 + r) % 32

theorem litRows_cons_iff (x0 y0 : Nat) (b : Byte) (bs : List Byte) (px py : Nat) :
    litRows x0 y0 (b :: bs) px py ↔ litColumns b x0 (y0 % 32) 0 8 px py ∨ litRows x0 (y0 + 1) bs px py := by
  constructor
  · rintro ⟨r, c, hr, hc, hbit, hpx, hpy⟩
    cases r with
    | zero => exact .inl ⟨c, Nat.zero_le c, by omega, hbit, hpx, hpy⟩
    | succ r =>
      exact .inr ⟨r, c, Nat.lt_of_succ_lt_succ hr, hc, hbit, hpx, by rw [hpy, Nat.add_right_comm, Nat.add_assoc]⟩
  · rintro (⟨c, -, hc, hbit, hpx, hpy⟩ | ⟨r, c, hr, hc, hbit, hpx, hpy⟩)
    · exact ⟨0, c, Nat.succ_pos _, by omega, hbit, hpx, hpy⟩
    · exact ⟨r + 1, c, Nat.succ_lt_succ hr, hc, hbit, hpx, by rw [hpy, Nat.add_right_comm, Nat.add_assoc]⟩

theorem inverts_drawRows (x0 y0 r : Nat) {bs : List Byte} (h : bs.length ≤ 32) (cv : Canvas) :
    cv.Inverts (Canvas.drawRows x0 y0 r bs cv) (litRows x0 (y0 + r) bs) := by
  induction bs generalizing r cv with
  | nil => exact .of_empty fun px py ⟨j, _, hj, _⟩ => absurd hj (Nat.not_lt_zero j)
  | cons b bs ih =>
    rw [List.length_cons] at h
    have hrow := inverts_drawColumns b x0 (y := (y0 + r) % 32) (Nat.mod_lt _ (by decide)) (c := 0) (k := 8) le_rfl cv
    refine hrow.comp (ih (r + 1) (by omega) _) ?_ (litRows_cons_iff x0 (y0 + r) b bs)
    rintro px py ⟨j, -, -, -, -, hpy⟩ ⟨r', c, hr', -, -, -, hpy'⟩
    omega

/-! ### The draw of an instruction -/

/-- The pixels under the 1 bits of the sprite of `Dxyn` (R172, R173). -/
def State.lit (s : State) (x y n : Nibble) (px py : Nat) : Prop :=
  ∃ r c, r < n.toNat ∧ c < 8 ∧ (s.mem.read (s.effAddr r)).getLsbD (7 - c) = true ∧
    px = ((s.reg x).toNat % 64 + c) % 64 ∧ py = ((s.reg y).toNat % 32 + r) % 32

variable (s : State) (x y n : Nibble)

theorem litRows_sprite_iff (px py : Nat) :
    litRows ((s.reg x).toNat % 64) ((s.reg y).toNat % 32) (s.sprite n) px py ↔ s.lit x y n px py := by
  refine exists_congr fun r => exists_congr fun c => ?_
  rw [State.sprite, Memory.readBytes_length]
  refine and_congr_right fun hr => ?_
  rw [Memory.getD_readBytes _ _ _ _ hr]
  rfl

theorem inverts_drawn : Canvas.Inverts { fb := s.fb, coll := false } (s.drawn x y n) (s.lit x y n) := by
  have hn : n.toNat < 16 := n.isLt
  have hlen : (s.sprite n).length ≤ 32 := by
    rw [State.sprite, Memory.readBytes_length]
    omega
  have hlit := funext fun px => funext fun py => propext (litRows_sprite_iff s x y n px py)
  exact hlit ▸ inverts_drawRows ((s.reg x).toNat % 64) ((s.reg y).toNat % 32) 0 hlen _

/-- Two different bits of a sprite fall on different pixels. -/
theorem State.lit_position_iff {r c : Nat} (hr : r < n.toNat) (hc : c < 8) :
    s.lit x y n (((s.reg x).toNat % 64 + c) % 64) (((s.reg y).toNat % 32 + r) % 32) ↔
      (s.mem.read (s.effAddr r)).getLsbD (7 - c) = true := by
  have hn : n.toNat < 16 := n.isLt
  constructor
  · rintro ⟨r', c', hr', hc', hbit, hpx, hpy⟩
    obtain rfl : r = r' := by omega
    obtain rfl : c = c' := by omega
    exact hbit
  · exact fun hbit => ⟨r, c, hr, hc, hbit, rfl, rfl⟩

/-- A statement about some lit pixel, by the row and column of its bit. -/
theorem State.exists_lit_iff (p : Nat → Nat → Prop) :
    (∃ px py, s.lit x y n px py ∧ p px py) ↔
      ∃ r c, r < n.toNat ∧ c < 8 ∧ (s.mem.read (s.effAddr r)).getLsbD (7 - c) = true ∧
        p (((s.reg x).toNat % 64 + c) % 64) (((s.reg y).toNat % 32 + r) % 32) := by
  constructor
  · rintro ⟨_, _, ⟨r, c, hr, hc, hbit, rfl, rfl⟩, hp⟩
    exact ⟨r, c, hr, hc, hbit, hp⟩
  · rintro ⟨r, c, hr, hc, hbit, hp⟩
    exact ⟨_, _, ⟨r, c, hr, hc, hbit, rfl, rfl⟩, hp⟩

theorem pixel_drawn_position {r c : Nat} (hr : r < n.toNat) (hc : c < 8) :
    (s.drawn x y n).fb.pixel (((s.reg x).toNat % 64 + c) % 64) (((s.reg y).toNat % 32 + r) % 32) =
      (s.pixel (((s.reg x).toNat % 64 + c) % 64) (((s.reg y).toNat % 32 + r) % 32) ^^
        (s.mem.read (s.effAddr r)).getLsbD (7 - c)) := by
  cases hbit : (s.mem.read (s.effAddr r)).getLsbD (7 - c) with
  | true =>
    rw [(inverts_drawn s x y n).pixel_of_lit ((s.lit_position_iff x y n hr hc).2 hbit), Bool.xor_true]
    rfl
  | false =>
    have hlit := (s.lit_position_iff x y n hr hc).not.2 (by simp [hbit])
    rw [(inverts_drawn s x y n).pixel_of_not_lit hlit, Bool.xor_false]
    rfl

theorem coll_drawn_iff : (s.drawn x y n).coll = true ↔ ∃ px py, s.lit x y n px py ∧ s.pixel px py = true :=
  (inverts_drawn s x y n).coll_iff.trans (or_iff_right Bool.false_ne_true)

/-! ### What DRW answers -/

/-- The sprite drawn and VF written (R171). -/
def State.drew : State := ({ s with fb := (s.drawn x y n).fb } : State).setReg regF (flagByte (s.drawn x y n).coll)

variable {s n}

theorem exec_drw_of_le (h : n.toNat = 0 ∨ s.effAddr (n.toNat - 1) ≤ 0xFFF) :
    exec (.drw x y n) s = .next (s.drew x y n).advance :=
  if_pos ((inBounds_iff _ _).2 (by simp only [State.effAddr] at h ⊢; omega))

theorem exec_drw_of_gt (hn : n.toNat ≠ 0) (h : 0xFFF < s.effAddr (n.toNat - 1)) :
    exec (.drw x y n) s = .next { s with fault := .memoryBounds } :=
  if_neg fun hin => by
    have hin := (inBounds_iff _ _).1 hin
    simp only [State.effAddr] at h hin
    omega

theorem flagByte_eq_one_iff (c : Bool) : flagByte c = 1 ↔ c = true := by
  cases c <;> decide

theorem flagByte_eq_zero_or_one (c : Bool) : flagByte c = 0 ∨ flagByte c = 1 := by
  cases c <;> decide

variable (s n)

theorem reg_regF_drew : (s.drew x y n).reg regF = flagByte (s.drawn x y n).coll := State.reg_setReg_same ..

theorem regsSameExcept_drew : RegsSameExcept [regF] s (s.drew x y n) := fun r hr =>
  State.reg_setReg_of_ne _ regF _ r fun h => hr (List.mem_singleton.2 h)

end Machine

open Machine

/-- Settles O34. -/
theorem drawXorsTheSpriteAndReportsCollision : Obligations.DrawXorsTheSpriteAndReportsCollision := by
  intro x y n s hb
  refine ⟨decode_encode (.drw x y n), _, exec_drw_of_le x y hb, fun r c => pixel_drawn_position s x y n, ?_, ?_, ?_,
    rfl, regsSameExcept_drew s x y n, sameExcept_of_takeFrom rfl⟩
  · rintro px py hout
    exact (inverts_drawn s x y n).pixel_of_not_lit fun ⟨r, c, hr, hc, _, hpos⟩ => hout r c hr hc hpos
  · rw [State.reg_advance, reg_regF_drew]
    exact flagByte_eq_zero_or_one _
  · rw [State.reg_advance, reg_regF_drew, flagByte_eq_one_iff, coll_drawn_iff, State.exists_lit_iff]

/-- Settles O35. -/
theorem drawBeyondMemoryHalts : Obligations.DrawBeyondMemoryHalts := fun x y _ _ => exec_drw_of_gt x y

/-- Settles O36. The second draw inverts the pixels that the first inverted, and meets each as the first left it. -/
theorem drawTwiceRestoresTheFramebuffer : Obligations.DrawTwiceRestoresTheFramebuffer := by
  intro x y n s t u hb hdrw hfb hi hmem hx hy
  rw [exec_drw_of_le x y hb] at hdrw
  cases hdrw
  have hlit : u.lit x y n = s.lit x y n := by
    unfold State.lit State.effAddr
    rw [hi, hmem, hx, hy]
  have hfirst := inverts_drawn s x y n
  have hsecond := inverts_drawn u x y n
  rw [hlit] at hsecond
  have hpixel (px py : Nat) : u.fb.pixel px py = (s.drawn x y n).fb.pixel px py := by rw [hfb]; rfl
  have hb' : n.toNat = 0 ∨ u.effAddr (n.toNat - 1) ≤ 0xFFF := by
    rwa [State.effAddr, hi]
  refine ⟨_, exec_drw_of_le x y hb', fun px py => ?_, ?_⟩
  · show (u.drawn x y n).fb.pixel px py = s.fb.pixel px py
    by_cases hl : s.lit x y n px py
    · rw [hsecond.pixel_of_lit hl, hpixel, hfirst.pixel_of_lit hl, Bool.not_not]
    · rw [hsecond.pixel_of_not_lit hl, hpixel, hfirst.pixel_of_not_lit hl]
  · rw [State.reg_advance, reg_regF_drew, flagByte_eq_one_iff, coll_drawn_iff, hlit,
      ← State.exists_lit_iff s x y n (fun px py => s.pixel px py = false)]
    refine exists_congr fun px => exists_congr fun py => and_congr_right fun hl => ?_
    show u.fb.pixel px py = true ↔ s.fb.pixel px py = false
    rw [hpixel, hfirst.pixel_of_lit hl, Bool.not_eq_true']

end Sys2Proof
end

section
/-! SUPPORT. What an instruction can do: for the six with a check of their own, the cases of their answer; for all 34,
which elements and which registers they write, and that they raise exactly the status of their check
(`60_exceptions.md` R228, `10_state.md` R10 to R20). -/

namespace Sys2Proof

namespace Machine
variable {i : Instr} {x y n r : Nibble} {nnn : Addr12} {s t : State}

/-! ### The six instructions with a check -/

theorem exec_ret_cases (h : exec .ret s = .next t) :
    s.sp = 0xFF ∧ t = { s with fault := .stackUnderflow } ∨
      ∃ hlt : s.sp.toNat < 16, t = ({ s with sp := s.sp - 1 } : State).setPc s.stack[s.sp.toNat] := by
  by_cases hempty : s.sp = 0xFF
  · rw [exec_ret_of_empty hempty] at h
    exact .inl ⟨hempty, (Host.Outcome.next.inj h).symm⟩
  · by_cases hlt : s.sp.toNat < 16
    · rw [exec_ret_of_lt hlt] at h
      exact .inr ⟨hlt, (Host.Outcome.next.inj h).symm⟩
    · rw [exec_ret_of_illegal (by omega) (by bv_omega)] at h
      cases h

theorem exec_call_cases (h : exec (.call nnn) s = .next t) :
    s.sp = 0x0F ∧ t = { s with fault := .stackOverflow } ∨
      ∃ hroom : (s.sp + 1).toNat < 16, t = s.called nnn hroom := by
  by_cases hfull : s.sp = 0x0F
  · rw [exec_call_of_full nnn hfull] at h
    exact .inl ⟨hfull, (Host.Outcome.next.inj h).symm⟩
  · by_cases hroom : (s.sp + 1).toNat < 16
    · rw [exec_call_of_room nnn hroom] at h
      exact .inr ⟨hroom, (Host.Outcome.next.inj h).symm⟩
    · rw [exec_call_of_illegal nnn (by bv_omega) (by bv_omega)] at h
      cases h

theorem exec_drw_cases (h : exec (.drw x y n) s = .next t) :
    (n.toNat ≠ 0 ∧ 0xFFF < s.effAddr (n.toNat - 1)) ∧ t = { s with fault := .memoryBounds } ∨
      t = (s.drew x y n).advance := by
  by_cases hb : n.toNat ≠ 0 ∧ 0xFFF < s.effAddr (n.toNat - 1)
  · rw [exec_drw_of_gt x y hb.1 hb.2] at h
    exact .inl ⟨hb, (Host.Outcome.next.inj h).symm⟩
  · rw [exec_drw_of_le x y (by omega)] at h
    exact .inr (Host.Outcome.next.inj h).symm

theorem exec_ldB_cases (h : exec (.ldB x) s = .next t) :
    0xFFF < s.effAddr 2 ∧ t = { s with fault := .memoryBounds } ∨
      s.effAddr 2 ≤ 0xFFF ∧ t = (s.storeBytes (s.effAddr 0) (decimalDigits (s.reg x))).advance := by
  rcases Nat.lt_or_ge 0xFFF (s.effAddr 2) with hb | hb
  · rw [exec_ldB_of_gt hb] at h
    exact .inl ⟨hb, (Host.Outcome.next.inj h).symm⟩
  · rw [exec_ldB_of_le hb] at h
    exact .inr ⟨hb, (Host.Outcome.next.inj h).symm⟩

theorem exec_storeRegs_cases (h : exec (.storeRegs x) s = .next t) :
    0xFFF < s.effAddr x.toNat ∧ t = { s with fault := .memoryBounds } ∨
      s.effAddr x.toNat ≤ 0xFFF ∧ t = (s.storeBytes (s.effAddr 0) (s.regsUpTo x)).advance := by
  rcases Nat.lt_or_ge 0xFFF (s.effAddr x.toNat) with hb | hb
  · rw [exec_storeRegs_of_gt hb] at h
    exact .inl ⟨hb, (Host.Outcome.next.inj h).symm⟩
  · rw [exec_storeRegs_of_le hb] at h
    exact .inr ⟨hb, (Host.Outcome.next.inj h).symm⟩

theorem exec_loadRegs_cases (h : exec (.loadRegs x) s = .next t) :
    0xFFF < s.effAddr x.toNat ∧ t = { s with fault := .memoryBounds } ∨ t = (s.loaded x).advance := by
  rcases Nat.lt_or_ge 0xFFF (s.effAddr x.toNat) with hb | hb
  · rw [exec_loadRegs_of_gt hb] at h
    exact .inl ⟨hb, (Host.Outcome.next.inj h).symm⟩
  · rw [exec_loadRegs_of_le hb] at h
    exact .inr (Host.Outcome.next.inj h).symm

/-! ### The elements an instruction writes -/

theorem sameExcept_mayWrite_of_exec (h : exec i s = .next t) : SameExcept (mayWrite i) s t := by
  cases i with
  | ret => obtain ⟨-, rfl⟩ | ⟨_, rfl⟩ := exec_ret_cases h <;> exact sameExcept_of_takeFrom rfl
  | call => obtain ⟨-, rfl⟩ | ⟨_, rfl⟩ := exec_call_cases h <;> exact sameExcept_of_takeFrom rfl
  | drw => obtain ⟨-, rfl⟩ | rfl := exec_drw_cases h <;> exact sameExcept_of_takeFrom rfl
  | ldB => obtain ⟨-, rfl⟩ | ⟨-, rfl⟩ := exec_ldB_cases h <;> exact sameExcept_of_takeFrom rfl
  | storeRegs => obtain ⟨-, rfl⟩ | ⟨-, rfl⟩ := exec_storeRegs_cases h <;> exact sameExcept_of_takeFrom rfl
  | loadRegs => obtain ⟨-, rfl⟩ | rfl := exec_loadRegs_cases h <;> exact sameExcept_of_takeFrom rfl
  | _ =>
    obtain rfl := Host.Outcome.next.inj h
    exact sameExcept_of_takeFrom rfl

/-! ### The registers an instruction writes -/

theorem RegsSameExcept.of_sameExcept {changed : List Element} {l : List Nibble} (h : SameExcept changed s t)
    (hregs : .regs ∉ changed) : RegsSameExcept l s t := fun r _ => h .regs hregs r

theorem mem_destRegs_loadRegs_iff : r ∈ destRegs (.loadRegs x) ↔ r.toNat ≤ x.toNat := by
  have hr : r.toNat < 16 := r.isLt
  simp only [destRegs, List.mem_map, List.mem_range, Nat.lt_succ_iff]
  constructor
  · rintro ⟨k, hk, rfl⟩
    exact (Nat.mod_le k 16).trans hk
  · exact fun hrx => ⟨r.toNat, hrx, BitVec.eq_of_toNat_eq (Nat.mod_eq_of_lt hr)⟩

theorem regsSameExcept_loaded (s : State) (x : Nibble) : RegsSameExcept (destRegs (.loadRegs x)) s (s.loaded x) :=
  fun r hr => by rw [State.reg_loaded, if_neg (mem_destRegs_loadRegs_iff.not.1 hr)]

/-- The writers of registers case by case; the others by the frame of elements. -/
theorem regsSameExcept_destRegs_of_exec (h : exec i s = .next t) : RegsSameExcept (destRegs i) s t := by
  cases i with
  | ldImm x | addImm x | ldReg x | orReg x | andReg x | xorReg x | ldVxDt x | rnd x =>
    obtain rfl := Host.Outcome.next.inj h
    exact regsSameExcept_writeAndAdvance _ x _
  | addReg x | subReg x | shr x | subn x | shl x =>
    obtain rfl := Host.Outcome.next.inj h
    exact regsSameExcept_writeFlaggedAndAdvance s x _ _
  | drw x y n =>
    obtain ⟨-, rfl⟩ | rfl := exec_drw_cases h
    · exact fun _ _ => rfl
    · exact regsSameExcept_drew s x y n
  | loadRegs x =>
    obtain ⟨-, rfl⟩ | rfl := exec_loadRegs_cases h
    · exact fun _ _ => rfl
    · exact regsSameExcept_loaded s x
  | _ => exact .of_sameExcept (sameExcept_mayWrite_of_exec h) (by simp [mayWrite])

/-! ### An instruction raises the status of its own check -/

/-- The form of the six checks of `ownCheck`. -/
theorem ite_none_eq_none_iff {p : Prop} [Decidable p] {c : FaultCode} (hc : c ≠ .none) :
    (if p then c else .none) = FaultCode.none ↔ ¬ p := by
  rw [ite_eq_right_iff]
  exact imp_congr_right fun _ => iff_false_intro hc

theorem ownCheck_ret_eq_none_iff : ownCheck .ret s = .none ↔ ¬ s.sp = 0xFF :=
  ite_none_eq_none_iff (c := .stackUnderflow) (by decide)

theorem ownCheck_call_eq_none_iff : ownCheck (.call nnn) s = .none ↔ ¬ s.sp = 0x0F :=
  ite_none_eq_none_iff (c := .stackOverflow) (by decide)

theorem ownCheck_drw_eq_none_iff :
    ownCheck (.drw x y n) s = .none ↔ ¬ (n.toNat ≠ 0 ∧ 0xFFF < s.effAddr (n.toNat - 1)) := by
  refine (ite_none_eq_none_iff (c := .memoryBounds) (by decide)).trans (not_congr ?_)
  have hn : n ≠ 0 ↔ n.toNat ≠ 0 := BitVec.toNat_ne_iff_ne.symm
  rw [hn, State.effAddr]
  omega

theorem ownCheck_ldB_eq_none_iff : ownCheck (.ldB x) s = .none ↔ ¬ 0xFFF < s.effAddr 2 :=
  ite_none_eq_none_iff (c := .memoryBounds) (by decide)

theorem ownCheck_storeRegs_eq_none_iff : ownCheck (.storeRegs x) s = .none ↔ ¬ 0xFFF < s.effAddr x.toNat :=
  ite_none_eq_none_iff (c := .memoryBounds) (by decide)

theorem ownCheck_loadRegs_eq_none_iff : ownCheck (.loadRegs x) s = .none ↔ ¬ 0xFFF < s.effAddr x.toNat :=
  ite_none_eq_none_iff (c := .memoryBounds) (by decide)

theorem exec_of_ownCheck_ne_none (h : ownCheck i s ≠ .none) : exec i s = .next { s with fault := ownCheck i s } := by
  cases i with
  | ret =>
    have hsp : s.sp = 0xFF := not_not.1 (ownCheck_ret_eq_none_iff.not.1 h)
    rw [exec_ret_of_empty hsp, ownCheck, if_pos hsp]
  | call nnn =>
    have hsp : s.sp = 0x0F := not_not.1 (ownCheck_call_eq_none_iff.not.1 h)
    rw [exec_call_of_full nnn hsp, ownCheck, if_pos hsp]
  | drw x y n =>
    obtain ⟨hn, hb⟩ := not_not.1 (ownCheck_drw_eq_none_iff.not.1 h)
    rw [exec_drw_of_gt x y hn hb, ownCheck, if_pos (by_contra fun hc => h (if_neg hc))]
  | ldB x =>
    have hb := not_not.1 (ownCheck_ldB_eq_none_iff.not.1 h)
    have hcode : ownCheck (.ldB x) s = .memoryBounds := if_pos hb
    rw [exec_ldB_of_gt hb, hcode]
  | storeRegs x =>
    have hb := not_not.1 (ownCheck_storeRegs_eq_none_iff.not.1 h)
    have hcode : ownCheck (.storeRegs x) s = .memoryBounds := if_pos hb
    rw [exec_storeRegs_of_gt hb, hcode]
  | loadRegs x =>
    have hb := not_not.1 (ownCheck_loadRegs_eq_none_iff.not.1 h)
    have hcode : ownCheck (.loadRegs x) s = .memoryBounds := if_pos hb
    rw [exec_loadRegs_of_gt hb, hcode]
  | _ => exact absurd rfl h

theorem fault_of_exec_of_ownCheck (hc : ownCheck i s = .none) (h : exec i s = .next t) : t.fault = s.fault := by
  cases i with
  | ret =>
    obtain ⟨hsp, -⟩ | ⟨_, rfl⟩ := exec_ret_cases h
    · exact absurd hsp (ownCheck_ret_eq_none_iff.1 hc)
    · rfl
  | call =>
    obtain ⟨hsp, -⟩ | ⟨_, rfl⟩ := exec_call_cases h
    · exact absurd hsp (ownCheck_call_eq_none_iff.1 hc)
    · rfl
  | drw =>
    obtain ⟨hb, -⟩ | rfl := exec_drw_cases h
    · exact absurd hb (ownCheck_drw_eq_none_iff.1 hc)
    · rfl
  | ldB =>
    obtain ⟨hb, -⟩ | ⟨-, rfl⟩ := exec_ldB_cases h
    · exact absurd hb (ownCheck_ldB_eq_none_iff.1 hc)
    · rfl
  | storeRegs =>
    obtain ⟨hb, -⟩ | ⟨-, rfl⟩ := exec_storeRegs_cases h
    · exact absurd hb (ownCheck_storeRegs_eq_none_iff.1 hc)
    · rfl
  | loadRegs =>
    obtain ⟨hb, -⟩ | rfl := exec_loadRegs_cases h
    · exact absurd hb (ownCheck_loadRegs_eq_none_iff.1 hc)
    · rfl
  | _ => exact sameExcept_mayWrite_of_exec h .fault (by simp [mayWrite])

/-- With a legal SP every instruction answers a next state. -/
theorem exec_answers (hsp : s.SpLegal) (i : Instr) : ∃ t, exec i s = .next t := by
  by_cases hc : ownCheck i s = .none
  · cases i with
    | ret => exact ⟨_, exec_ret_of_lt (hsp.resolve_left (ownCheck_ret_eq_none_iff.1 hc))⟩
    | call nnn => exact ⟨_, exec_call_of_room nnn (hsp.toNat_sp_add_one_lt (ownCheck_call_eq_none_iff.1 hc))⟩
    | drw x y n =>
      have hb := ownCheck_drw_eq_none_iff.1 hc
      exact ⟨_, exec_drw_of_le x y (by omega)⟩
    | ldB => exact ⟨_, exec_ldB_of_le (Nat.not_lt.1 (ownCheck_ldB_eq_none_iff.1 hc))⟩
    | storeRegs => exact ⟨_, exec_storeRegs_of_le (Nat.not_lt.1 (ownCheck_storeRegs_eq_none_iff.1 hc))⟩
    | loadRegs => exact ⟨_, exec_loadRegs_of_le (Nat.not_lt.1 (ownCheck_loadRegs_eq_none_iff.1 hc))⟩
    | _ => exact ⟨_, rfl⟩
  · exact ⟨_, exec_of_ownCheck_ne_none hc⟩

end Machine

open Machine

/-- Settles O44. -/
theorem instructionsWriteOnlyTheirElements : Obligations.InstructionsWriteOnlyTheirElements :=
  fun _ _ _ => sameExcept_mayWrite_of_exec

/-- Settles O45. -/
theorem instructionsWriteOnlyTheirRegisters : Obligations.InstructionsWriteOnlyTheirRegisters :=
  fun _ _ _ => regsSameExcept_destRegs_of_exec

end Sys2Proof
end

section
/-! SUPPORT. The tick: one equation per run state and per outcome of fetch and decode, the step that a schedule leads
to, and the status a tick replies (`40_dispatch.md` R80 to R90). -/

namespace Sys2Proof

/-! ### Words outside the table (R66, R68) -/

theorem row_mem_opcodeTable (i : Instr) : i.row ∈ opcodeTable := by
  cases i with
  | _ => simp [opcodeTable, Instr.row]

theorem wordWellFormed_of_decode {w : Word} {i : Instr} (h : decode w = .ok i) : wordWellFormed w = true :=
  List.any_eq_true.2 ⟨i.row, row_mem_opcodeTable i, matchesWord_row_of_decode h⟩

theorem exists_decode_error_of_not_wellFormed {w : Word} (h : wordWellFormed w = false) :
    ∃ e, decode w = .error e := by
  cases hd : decode w with
  | error e => exact ⟨e, rfl⟩
  | ok i => exact absurd (wordWellFormed_of_decode hd) (by simp [h])

namespace Machine
variable {s t : State} {i : Instr}

/-! ### What a tick answers -/

theorem tick_of_halted (h : s.Halted) : tick s = .next s := if_pos h

theorem tick_of_waiting (h : s.Waiting) : tick s = waitPoll s :=
  (if_neg (not_not.2 h.1)).trans (if_pos h.2)

theorem tick_of_running (h : s.Running) : tick s = runningTick s :=
  (if_neg (not_not.2 h.1)).trans (if_neg (by simp [h.2]))

theorem tick_of_unfetchable (h : s.Running) (hpc : 0xFFE < s.pc.toNat) :
    tick s = .next { s with fault := .memoryBounds, loadOpen := false } := by
  rw [tick_of_running h, runningTick, fetch_of_gt hpc]
  rfl

/-- A fetched word goes to the decoder, with IR updated and the load window closed. -/
theorem tick_of_fetchable (h : s.Running) (hpc : s.pc.toNat ≤ 0xFFE) :
    tick s = decodeAndExecute s.wordAtPc { s with ir := s.wordAtPc, loadOpen := false } := by
  rw [tick_of_running h, runningTick, fetch_of_le hpc]
  rfl

theorem tick_of_decode_ok (h : s.Running) (hpc : s.pc.toNat ≤ 0xFFE) (hd : decode s.wordAtPc = .ok i) :
    tick s = exec i { s with ir := s.wordAtPc, loadOpen := false } := by
  rw [tick_of_fetchable h hpc, decodeAndExecute, hd]

theorem tick_of_decode_error {e : DecodeError} (h : s.Running) (hpc : s.pc.toNat ≤ 0xFFE)
    (hd : decode s.wordAtPc = .error e) :
    tick s = .next { s with fault := .notImplemented, ir := s.wordAtPc, loadOpen := false } := by
  rw [tick_of_fetchable h hpc, decodeAndExecute, hd]
  rfl

/-- The three ways of a running tick. -/
theorem running_fetch_cases (s : State) :
    0xFFE < s.pc.toNat ∨ s.pc.toNat ≤ 0xFFE ∧
      ((∃ e, decode s.wordAtPc = .error e) ∨ ∃ i, decode s.wordAtPc = .ok i) := by
  rcases Nat.lt_or_ge 0xFFE s.pc.toNat with hpc | hpc
  · exact .inl hpc
  · cases hd : decode s.wordAtPc with
    | error e => exact .inr ⟨hpc, .inl ⟨e, rfl⟩⟩
    | ok i => exact .inr ⟨hpc, .inr ⟨i, rfl⟩⟩

/-! ### The step of a schedule (log 1) -/

theorem step_of_host_nil (h : s.host = []) : step s = tick s := by
  rw [step, nextEvent, h]

theorem step_of_host_cons {e : HostEvent} {rest : List HostEvent} (h : s.host = e :: rest) :
    step s = deliver e { s with host := rest } := by
  rw [step, nextEvent, h]

/-! ### The status of a tick -/

theorem reply_tick_of_next (h : tick s = .next t) : reply .tick s = some t.status := by
  rw [reply, h]

theorem reply_tick_of_ok (h : tick s = .next t) (hf : t.fault = .none) : reply .tick s = some .ok :=
  (reply_tick_of_next h).trans (congrArg some (if_pos hf))

theorem reply_tick_of_fail (h : tick s = .next t) (hf : t.Halted) : reply .tick s = some .fail :=
  (reply_tick_of_next h).trans (congrArg some (if_neg hf))

/-! ### The check of the fetched instruction -/

/-- No check looks at IR or the load window. -/
theorem ownCheck_fetched (i : Instr) (s : State) (w : Word) :
    ownCheck i { s with ir := w, loadOpen := false } = ownCheck i s := by
  cases i with
  | _ => rfl

theorem firstFailingCheck_of_unfetchable (hpc : 0xFFE < s.pc.toNat) : firstFailingCheck s = .memoryBounds :=
  if_pos hpc

theorem firstFailingCheck_of_decode_error {e : DecodeError} (hpc : s.pc.toNat ≤ 0xFFE)
    (hd : decode s.wordAtPc = .error e) : firstFailingCheck s = .notImplemented := by
  rw [firstFailingCheck, if_neg (Nat.not_lt.2 hpc), hd]

theorem firstFailingCheck_of_decode_ok (hpc : s.pc.toNat ≤ 0xFFE) (hd : decode s.wordAtPc = .ok i) :
    firstFailingCheck s = ownCheck i s := by
  rw [firstFailingCheck, if_neg (Nat.not_lt.2 hpc), hd]

/-- What an instruction of a machine without a fault leaves in FAULT is its check. -/
theorem fault_of_exec (h : exec i s = .next t) (hs : s.fault = .none) : t.fault = ownCheck i s := by
  by_cases hc : ownCheck i s = .none
  · rw [hc, fault_of_exec_of_ownCheck hc h, hs]
  · rw [exec_of_ownCheck_ne_none hc] at h
    rw [← Host.Outcome.next.inj h]

/-- An instruction that halts the machine changes nothing but FAULT. -/
theorem eq_withFault_of_exec_of_halted (h : exec i s = .next t) (hs : s.fault = .none) (ht : t.Halted) :
    t = { s with fault := t.fault } := by
  have hc : ownCheck i s ≠ .none := fault_of_exec h hs ▸ ht
  rw [exec_of_ownCheck_ne_none hc] at h
  rw [← Host.Outcome.next.inj h]

/-- A running tick with a legal SP answers a next state. -/
theorem tick_answers_of_running (h : s.Running) (hsp : s.SpLegal) :
    ∃ t, tick s = .next t ∧ t.fault = firstFailingCheck s := by
  obtain hpc | ⟨hpc, ⟨e, hd⟩ | ⟨i, hd⟩⟩ := running_fetch_cases s
  · exact ⟨_, tick_of_unfetchable h hpc, (firstFailingCheck_of_unfetchable hpc).symm⟩
  · exact ⟨_, tick_of_decode_error h hpc hd, (firstFailingCheck_of_decode_error hpc hd).symm⟩
  · obtain ⟨t, ht⟩ := exec_answers (s := { s with ir := s.wordAtPc, loadOpen := false }) hsp i
    refine ⟨t, (tick_of_decode_ok h hpc hd).trans ht, ?_⟩
    rw [fault_of_exec ht h.1, ownCheck_fetched, firstFailingCheck_of_decode_ok hpc hd]

/-! ### The poll of a suspended machine (R194) -/

theorem waitPoll_of_no_key (h : s.keys = 0) : waitPoll s = .next s := if_pos h

theorem waitPoll_of_key (h : s.keys ≠ 0) :
    waitPoll s = .next (({ s with wait := false } : State).writeAndAdvance s.wreg (zext4 (keySelect s.keys))) :=
  if_neg h

theorem toNat_zext4 (k : Nibble) : (zext4 k).toNat = k.toNat := BitVec.toNat_setWidth_of_le (by decide)

/-- When one key is pressed, that one is selected. -/
theorem toNat_keySelect_of_one {keys : Word} {k : Nat} (hkeys : keys ≠ 0)
    (hone : ∀ j, keys.getLsbD j = decide (j = k)) : (keySelect keys).toNat = k := by
  have hpressed := keySelect_pressed keys hkeys
  rwa [hone, decide_eq_true_iff] at hpressed

end Machine

open Machine

/-- Settles O4. -/
theorem unlistedWordHaltsWithNotImplemented : Obligations.UnlistedWordHaltsWithNotImplemented := by
  intro s hhost hrun hpc hword
  obtain ⟨e, hd⟩ := exists_decode_error_of_not_wellFormed hword
  rw [step_of_host_nil hhost, tick_of_decode_error hrun hpc hd]

/-- Settles O6. -/
theorem stepRunsTheDecodedInstruction : Obligations.StepRunsTheDecodedInstruction := by
  intro s rest i hrun hpc hd
  constructor
  · intro hhost
    rw [step_of_host_nil hhost, tick_of_decode_ok hrun hpc hd]
  · intro hhost
    rw [step_of_host_cons hhost]
    exact tick_of_decode_ok (s := { s with host := rest }) hrun hpc hd

/-- Settles O7. -/
theorem unfetchablePcHaltsWithMemoryBounds : Obligations.UnfetchablePcHaltsWithMemoryBounds := fun _ hrun hpc =>
  ⟨tick_of_unfetchable hrun hpc, reply_tick_of_fail (tick_of_unfetchable hrun hpc) nofun⟩

/-- Settles O8. -/
theorem haltedTickChangesNothingAndFails : Obligations.HaltedTickChangesNothingAndFails := fun _ h =>
  ⟨tick_of_halted h, reply_tick_of_fail (tick_of_halted h) h⟩

/-- Settles O9, by the outcome of fetch and decode; an instruction that halts has raised its own check. -/
theorem failingTickChangesOnlyFaultAndIr : Obligations.FailingTickChangesOnlyFaultAndIr := by
  intro s t hrun htick ht
  refine ⟨?_, reply_tick_of_fail htick ht⟩
  obtain hpc | ⟨hpc, ⟨e, hd⟩ | ⟨i, hd⟩⟩ := running_fetch_cases s
  · rw [tick_of_unfetchable hrun hpc] at htick
    rw [if_neg (Nat.not_le.2 hpc), ← Host.Outcome.next.inj htick]
  · rw [tick_of_decode_error hrun hpc hd] at htick
    rw [if_pos hpc, ← Host.Outcome.next.inj htick]
  · rw [tick_of_decode_ok hrun hpc hd] at htick
    rw [if_pos hpc]
    exact eq_withFault_of_exec_of_halted htick hrun.1 ht

/-- Settles O10. -/
theorem tickReportsTheFirstFailingCheck : Obligations.TickReportsTheFirstFailingCheck := by
  intro s hrun hsp
  obtain ⟨t, htick, hfault⟩ := tick_answers_of_running hrun hsp
  refine ⟨t, htick, hfault, ?_⟩
  rw [reply_tick_of_next htick, State.status, hfault]

/-- Settles O39. -/
theorem waitPollWithoutKeyChangesNothing : Obligations.WaitPollWithoutKeyChangesNothing := by
  intro s hwait hkeys
  have htick : tick s = .next s := (tick_of_waiting hwait).trans (waitPoll_of_no_key hkeys)
  exact ⟨htick, reply_tick_of_ok htick hwait.1⟩

/-- Settles O40. -/
theorem waitPollWithKeyCompletesTheWait : Obligations.WaitPollWithKeyCompletesTheWait := by
  intro s hwait hkeys
  have htick := (tick_of_waiting hwait).trans (waitPoll_of_key hkeys)
  have hreg := ({ s with wait := false } : State).reg_writeAndAdvance_same s.wreg (zext4 (keySelect s.keys))
  have hreg := (congrArg BitVec.toNat hreg).trans (toNat_zext4 _)
  refine ⟨_, htick, reply_tick_of_ok htick hwait.1, rfl, rfl, ?_, ?_, fun k _ hone => ?_,
    regsSameExcept_writeAndAdvance _ s.wreg _, sameExcept_of_takeFrom rfl⟩
  · rw [hreg]
    exact (keySelect s.keys).isLt
  · rw [hreg]
    exact keySelect_pressed s.keys hkeys
  · rw [hreg, toNat_keySelect_of_one hkeys hone]

end Sys2Proof
end

section
/-! SUPPORT. Load and reset: the three answers of a load, the bytes of a word stream, and the values after reset
(`70_reset_and_hazards.md` R260 to R263); with them the read accessors (`10_state.md` R31). -/

namespace Sys2Proof

namespace Machine
variable {s : State} {bytes : List Byte} {words : List Word}

/-! ### The answers of a load (R263) -/

theorem imageWellFormed_iff : imageWellFormed bytes = true ↔ bytes.length ≤ 0xE00 := decide_eq_true_iff

theorem loadRom_of_fits (hopen : s.loadOpen = true) (hlen : bytes.length ≤ 0xE00) :
    loadRom bytes s = .next (s.storeBytes 0x200 bytes) := by
  rw [loadRom, hopen, imageWellFormed_iff.2 hlen]
  rfl

theorem loadRom_of_too_large (hopen : s.loadOpen = true) (hlen : 0xE00 < bytes.length) : loadRom bytes s = .next s := by
  rw [loadRom, hopen, if_neg (imageWellFormed_iff.not.2 (Nat.not_le.2 hlen))]
  rfl

theorem loadRom_of_late (hclosed : s.loadOpen = false) : loadRom bytes s = .refused .loadAfterFirstTick := by
  rw [loadRom, hclosed]
  rfl

theorem loadReply_of_fits (hlen : bytes.length ≤ 0xE00) : loadReply bytes = .ok := if_pos (imageWellFormed_iff.2 hlen)

theorem loadReply_of_too_large (hlen : 0xE00 < bytes.length) : loadReply bytes = .loadTooLarge :=
  if_neg (imageWellFormed_iff.not.2 (Nat.not_le.2 hlen))

theorem reply_loadRom_of_open (hopen : s.loadOpen = true) : reply (.loadRom bytes) s = some (loadReply bytes) :=
  if_pos hopen

theorem reply_loadRomWords_of_open (hopen : s.loadOpen = true) :
    reply (.loadRomWords words) s = some (loadReply (bytesOfWords words)) := if_pos hopen

/-! ### The image in memory -/

section Image
variable (hwf : s.mem.wf = true) (hlen : bytes.length ≤ 0xE00)
include hwf hlen

theorem read_storeBytes_image (a : Nat) :
    (s.storeBytes 0x200 bytes).mem.read a =
      if 0x200 ≤ a ∧ a < 0x200 + bytes.length then bytes.getD (a - 0x200) 0 else s.mem.read a :=
  Memory.read_writeBytes hwf (by omega) a

theorem read_storeBytes_image_inside {k : Nat} (h : k < bytes.length) :
    (s.storeBytes 0x200 bytes).mem.read (0x200 + k) = bytes[k] := by
  rw [read_storeBytes_image hwf hlen, if_pos (by omega), Nat.add_sub_cancel_left, List.getD_eq_getElem bytes 0 h]

theorem read_storeBytes_image_outside (a : Nat) (ha : a < 0x200 ∨ 0x200 + bytes.length ≤ a) :
    (s.storeBytes 0x200 bytes).mem.read a = s.mem.read a := by
  rw [read_storeBytes_image hwf hlen, if_neg (by omega)]

end Image

theorem sameExcept_storeBytes (s : State) (a : Nat) (bs : List Byte) : SameExcept [.mem] s (s.storeBytes a bs) :=
  sameExcept_of_takeFrom rfl

/-! ### The bytes of a word stream -/

theorem length_bytesOfWords (words : List Word) : (bytesOfWords words).length = 2 * words.length := by
  induction words with
  | nil => rfl
  | cons w ws ih => rw [bytesOfWords, List.length_cons, List.length_cons, List.length_cons, ih, Nat.mul_succ]

theorem getElem?_bytesOfWords_high (words : List Word) (j : Nat) :
    (bytesOfWords words)[2 * j]? = words[j]?.map highByte := by
  induction words generalizing j with
  | nil => rfl
  | cons w ws ih =>
    cases j with
    | zero => rfl
    | succ j => exact ih j

theorem getElem?_bytesOfWords_low (words : List Word) (j : Nat) :
    (bytesOfWords words)[2 * j + 1]? = words[j]?.map lowByte := by
  induction words generalizing j with
  | nil => rfl
  | cons w ws ih =>
    cases j with
    | zero => rfl
    | succ j => exact ih j

section Words
variable {j : Nat} (h : j < words.length)

theorem getElem_bytesOfWords_high :
    (bytesOfWords words)[2 * j]'(by rw [length_bytesOfWords]; omega) = highByte words[j] := by
  apply Option.some.inj
  rw [← List.getElem?_eq_getElem, getElem?_bytesOfWords_high, List.getElem?_eq_getElem h, Option.map_some]

theorem getElem_bytesOfWords_low :
    (bytesOfWords words)[2 * j + 1]'(by rw [length_bytesOfWords]; omega) = lowByte words[j] := by
  apply Option.some.inj
  rw [← List.getElem?_eq_getElem, getElem?_bytesOfWords_low, List.getElem?_eq_getElem h, Option.map_some]

end Words

/-! ### The state after reset -/

theorem reg_reset (r : Nibble) : State.reset.reg r = 0 := Vector.getElem_replicate _

theorem stack_get_reset (k : Fin 16) : State.reset.stack.get k = 0 := Vector.getElem_replicate k.isLt

theorem read_reset_font {j : Nat} (hj : j < 80) :
    State.reset.mem.read (Config.fontBase.val + j) = Config.fontRom.toList.getD j 0 := by
  have hlen : j < Config.fontRom.toList.length := by rwa [Vector.length_toList]
  rw [List.getD_eq_getElem _ _ hlen, Vector.getElem_toList]
  exact Memory.resetByte_font hj

/-- The invariant after reset. -/
theorem inv_reset : State.reset.Inv where
  spLegal := .inl rfl
  pcBound := by decide
  stackBound k := by rw [stack_get_reset]; decide
  notBoth := nofun
  waitPc := nofun
  waitIr := nofun
  taccBound := timerPeriod_pos
  memWf := rfl
  loadRunning _ := ⟨rfl, rfl⟩

theorem sameExcept_resetEvent (s : State) : SameExcept [.host, .draws] State.reset (resetEvent s) :=
  sameExcept_of_takeFrom rfl

/-! ### Accessors -/

theorem stackTop_of_sp {k : Fin 16} (reading : Nat) (h : s.sp.toNat = k.val) : s.stackTop reading = s.stack.get k := by
  obtain ⟨k, hk⟩ := k
  obtain rfl : s.sp.toNat = k := h
  exact dif_pos hk

theorem depth_eq (s : State) : s.depth = (s.sp.toNat + 1) % 256 := State.toNat_sp_add_one

theorem depth_le_of_spLegal (h : s.SpLegal) : s.depth ≤ 16 := by
  rw [depth_eq]
  rcases h with hempty | hlt
  · rw [hempty]
    decide
  · exact (Nat.mod_le _ _).trans hlt

theorem depth_eq_zero_iff : s.depth = 0 ↔ s.sp = 0xFF := by
  rw [depth_eq]
  bv_omega

theorem memoryCell_of_le {a : Nat} (h : a ≤ 0xFFF) : s.memoryCell a = some (s.mem.read a) := if_pos h

theorem memoryCell_of_gt {a : Nat} (h : 0xFFF < a) : s.memoryCell a = none := if_neg (Nat.not_le.2 h)

theorem faultValue_eq_zero_iff : s.faultValue = 0 ↔ ¬ s.Halted := by
  rw [State.faultValue, State.Halted, not_not]
  cases s.fault <;> decide

theorem tone_iff : s.tone = true ↔ 0 < s.st.toNat := by
  rw [State.tone, bne_iff_ne]
  bv_omega

end Machine

open Machine

/-- Settles O48. -/
theorem loadCopiesTheImageToProgBase : Obligations.LoadCopiesTheImageToProgBase := fun _ s hopen hwf hlen =>
  ⟨_, loadRom_of_fits hopen hlen,
    (reply_loadRom_of_open hopen).trans (congrArg some (loadReply_of_fits hlen)),
    fun _ h => read_storeBytes_image_inside hwf hlen h, read_storeBytes_image_outside hwf hlen,
    sameExcept_storeBytes s _ _⟩

/-- Settles O49. -/
theorem loadWordsStoresBigEndian : Obligations.LoadWordsStoresBigEndian := by
  intro words s hopen hwf hlen
  rw [← length_bytesOfWords] at hlen
  refine ⟨_, loadRom_of_fits hopen hlen,
    (reply_loadRomWords_of_open hopen).trans (congrArg some (loadReply_of_fits hlen)), fun j h => ?_, ?_,
    sameExcept_storeBytes s _ _⟩
  · have hlt : 2 * j + 1 < (bytesOfWords words).length := by
      rw [length_bytesOfWords]
      omega
    rw [Nat.add_assoc, read_storeBytes_image_inside hwf hlen hlt,
      read_storeBytes_image_inside hwf hlen (Nat.lt_of_succ_lt hlt), getElem_bytesOfWords_high h,
      getElem_bytesOfWords_low h, wordOfBytes_high_low]
  · rw [← length_bytesOfWords]
    exact read_storeBytes_image_outside hwf hlen

/-- Settles O50. -/
theorem loadFailsWhenTooLargeOrLate : Obligations.LoadFailsWhenTooLargeOrLate := by
  refine fun bytes words s => ⟨fun hopen hlen => ⟨loadRom_of_too_large hopen hlen, ?_⟩, fun hopen hlen => ?_,
    fun hclosed => ⟨loadRom_of_late hclosed, loadRom_of_late hclosed⟩⟩
  · rw [reply_loadRom_of_open hopen, loadReply_of_too_large hlen]
  · rw [← length_bytesOfWords] at hlen
    refine ⟨loadRom_of_too_large hopen hlen, ?_⟩
    rw [reply_loadRomWords_of_open hopen, loadReply_of_too_large hlen]

/-- Settles O51. -/
theorem resetLeavesTheListedValues : Obligations.ResetLeavesTheListedValues :=
  ⟨rfl, rfl, Framebuffer.pixel_clear, reg_reset, rfl, stack_get_reset, rfl, rfl, rfl, rfl, rfl, rfl, rfl, rfl,
    fun _ => read_reset_font, fun _ => Memory.resetByte_outside_font⟩

/-- Settles O52. -/
theorem resetRestoresEveryElement : Obligations.ResetRestoresEveryElement := fun s =>
  ⟨resetEvent s, rfl, rfl, sameExcept_resetEvent s, rfl, rfl⟩

/-- Settles O53. -/
theorem resetMeetsTheInvariant : Obligations.ResetMeetsTheInvariant := inv_reset

/-- Settles O56. -/
theorem accessorsReadTheState : Obligations.AccessorsReadTheState := fun s =>
  ⟨fun _ reading => stackTop_of_sp reading, fun hsp => ⟨depth_eq s, depth_le_of_spLegal hsp, depth_eq_zero_iff⟩,
    fun _ => memoryCell_of_le, fun _ => memoryCell_of_gt, fun _ => rfl, rfl, fun _ y => dif_pos y.isLt,
    faultValue_eq_zero_iff, tone_iff⟩

end Sys2Proof
end

section
/-! SUPPORT. The invariant of `10_state.md` R28: each instruction keeps its parts, each event keeps it, and under it only
a late load stops a step. -/

namespace Sys2Proof

namespace Machine
variable {i : Instr} {e : HostEvent} {s t : State}

/-! ### What an instruction does to the parts of the invariant -/

theorem State.SpLegal.of_sp_eq (h : s.SpLegal) (hsp : t.sp = s.sp) : t.SpLegal := by
  rwa [State.SpLegal, hsp]

theorem spLegal_pop (h : s.sp.toNat < 16) : ({ s with sp := s.sp - 1 } : State).SpLegal := by
  simp only [State.SpLegal, Config.spEmpty, Config.stackDepth]
  bv_omega

theorem spLegal_of_exec (hsp : s.SpLegal) (h : exec i s = .next t) : t.SpLegal := by
  cases i with
  | ret =>
    obtain ⟨-, rfl⟩ | ⟨hlt, rfl⟩ := exec_ret_cases h
    · exact hsp
    · exact spLegal_pop hlt
  | call =>
    obtain ⟨-, rfl⟩ | ⟨hroom, rfl⟩ := exec_call_cases h
    · exact hsp
    · exact .inr hroom
  | _ => exact hsp.of_sp_eq (sameExcept_mayWrite_of_exec h .sp (by simp [mayWrite]))

theorem toNat_zext12_le (nnn : Addr12) : (zext12 nnn).toNat ≤ 0xFFF := by
  rw [toNat_zext12]
  exact Nat.le_of_lt_succ nnn.isLt

section PcBound
variable (hpc : s.pc.toNat ≤ 0xFFE)
include hpc

theorem toNat_pc_add_two_le : (s.pc + 2).toNat ≤ 0x1000 := by bv_omega

theorem toNat_pc_skipIf_le (c : Bool) : (s.skipIf c).pc.toNat ≤ 0x10FE := by
  rw [State.skipIf_pc]
  split <;> bv_omega

/-- R13: a jump reaches at most 0x10FE, a return what CALL pushed, every other instruction a few bytes on. -/
theorem toNat_pc_le_of_exec (hstack : ∀ k : Fin 16, (s.stack.get k).toNat ≤ 0x1000) (h : exec i s = .next t) :
    t.pc.toNat ≤ 0x10FE := by
  have hsame : s.pc.toNat ≤ 0x10FE := hpc.trans (by decide)
  have hadvance : (s.pc + 2).toNat ≤ 0x10FE := (toNat_pc_add_two_le hpc).trans (by decide)
  cases i with
  | ret =>
    obtain ⟨-, rfl⟩ | ⟨hlt, rfl⟩ := exec_ret_cases h
    · exact hsame
    · exact (hstack ⟨_, hlt⟩).trans (by decide)
  | call nnn =>
    obtain ⟨-, rfl⟩ | ⟨_, rfl⟩ := exec_call_cases h
    · exact hsame
    · exact (toNat_zext12_le nnn).trans (by decide)
  | jp nnn =>
    obtain rfl := Host.Outcome.next.inj h
    exact (toNat_zext12_le nnn).trans (by decide)
  | jpV0 nnn =>
    obtain rfl := Host.Outcome.next.inj h
    have hnnn : nnn.toNat < 0x1000 := nnn.isLt
    have hreg : (s.reg 0).toNat < 0x100 := (s.reg 0).isLt
    rw [State.setPc_pc, toNat_zext12_add_zext8]
    omega
  | seImm | sneImm | seReg | sneReg | skp | sknp =>
    obtain rfl := Host.Outcome.next.inj h
    exact toNat_pc_skipIf_le hpc _
  | ldVxK =>
    obtain rfl := Host.Outcome.next.inj h
    exact hsame
  | drw =>
    obtain ⟨-, rfl⟩ | rfl := exec_drw_cases h
    · exact hsame
    · exact hadvance
  | ldB =>
    obtain ⟨-, rfl⟩ | ⟨-, rfl⟩ := exec_ldB_cases h
    · exact hsame
    · exact hadvance
  | storeRegs =>
    obtain ⟨-, rfl⟩ | ⟨-, rfl⟩ := exec_storeRegs_cases h
    · exact hsame
    · exact hadvance
  | loadRegs =>
    obtain ⟨-, rfl⟩ | rfl := exec_loadRegs_cases h
    · exact hsame
    · exact hadvance
  | _ =>
    obtain rfl := Host.Outcome.next.inj h
    exact hadvance

/-- R14: what CALL pushes is at most 0x1000. -/
theorem toNat_stack_le_of_exec (hstack : ∀ k : Fin 16, (s.stack.get k).toNat ≤ 0x1000) (h : exec i s = .next t)
    (k : Fin 16) : (t.stack.get k).toNat ≤ 0x1000 := by
  cases i with
  | call nnn =>
    obtain ⟨-, rfl⟩ | ⟨hroom, rfl⟩ := exec_call_cases h
    · exact hstack k
    · rw [State.stack_get_called]
      split
      · exact toNat_pc_add_two_le hpc
      · exact hstack k
  | _ =>
    have hs : t.stack = s.stack := sameExcept_mayWrite_of_exec h .stack (by simp [mayWrite])
    exact hs ▸ hstack k

end PcBound

theorem mem_wf_of_exec (hwf : s.mem.wf = true) (h : exec i s = .next t) : t.mem.wf = true := by
  cases i with
  | ldB =>
    obtain ⟨-, rfl⟩ | ⟨hb, rfl⟩ := exec_ldB_cases h
    · exact hwf
    · exact Memory.writeBytes_wf hwf (Nat.succ_le_succ hb)
  | storeRegs x =>
    obtain ⟨-, rfl⟩ | ⟨hb, rfl⟩ := exec_storeRegs_cases h
    · exact hwf
    · exact Memory.writeBytes_wf hwf (by rw [State.length_regsUpTo]; exact Nat.succ_le_succ hb)
  | ret => obtain ⟨-, rfl⟩ | ⟨_, rfl⟩ := exec_ret_cases h <;> exact hwf
  | call => obtain ⟨-, rfl⟩ | ⟨_, rfl⟩ := exec_call_cases h <;> exact hwf
  | drw => obtain ⟨-, rfl⟩ | rfl := exec_drw_cases h <;> exact hwf
  | loadRegs => obtain ⟨-, rfl⟩ | rfl := exec_loadRegs_cases h <;> exact hwf
  | _ =>
    obtain rfl := Host.Outcome.next.inj h
    exact hwf

/-- R193: only `Fx0A` suspends the machine. -/
theorem eq_ldVxK_of_exec_of_wait (hs : s.wait = false) (h : exec i s = .next t) (ht : t.wait = true) :
    ∃ x, i = .ldVxK x ∧ t = { s with wait := true, wreg := x } := by
  cases i with
  | ldVxK x => exact ⟨x, rfl, (Host.Outcome.next.inj h).symm⟩
  | _ =>
    have hw : t.wait = s.wait := sameExcept_mayWrite_of_exec h .wait (by simp [mayWrite])
    rw [hw, hs] at ht
    cases ht

theorem tacc_of_exec (h : exec i s = .next t) : t.tacc = s.tacc :=
  sameExcept_mayWrite_of_exec h .tacc (by cases i with | _ => simp [mayWrite])

theorem loadOpen_of_exec (h : exec i s = .next t) : t.loadOpen = s.loadOpen :=
  sameExcept_mayWrite_of_exec h .loadOpen (by cases i with | _ => simp [mayWrite])

/-- An instruction that was fetched by a running machine, with the load window closed, keeps the invariant. -/
theorem inv_of_exec (hs : s.Inv) (hrun : s.Running) (hpc : s.pc.toNat ≤ 0xFFE) (hir : decode s.ir = .ok i)
    (hclosed : s.loadOpen = false) (h : exec i s = .next t) : t.Inv where
  spLegal := spLegal_of_exec hs.spLegal h
  pcBound := toNat_pc_le_of_exec hpc hs.stackBound h
  stackBound := toNat_stack_le_of_exec hpc hs.stackBound h
  notBoth := fun ⟨hw, hf⟩ => by
    obtain ⟨x, -, rfl⟩ := eq_ldVxK_of_exec_of_wait hrun.2 h hw
    exact hf hrun.1
  waitPc hw := by
    obtain ⟨x, -, rfl⟩ := eq_ldVxK_of_exec_of_wait hrun.2 h hw
    exact hpc
  waitIr hw := by
    obtain ⟨x, rfl, rfl⟩ := eq_ldVxK_of_exec_of_wait hrun.2 h hw
    exact hir
  taccBound := tacc_of_exec h ▸ hs.taccBound
  memWf := mem_wf_of_exec hs.memWf h
  loadRunning hopen := by
    rw [loadOpen_of_exec h, hclosed] at hopen
    cases hopen

/-! ### The events keep the invariant -/

theorem run_state_cases (s : State) : s.Halted ∨ s.Waiting ∨ s.Running := by
  by_cases hf : s.fault = .none
  · cases hw : s.wait with
    | true => exact .inr (.inl ⟨hf, hw⟩)
    | false => exact .inr (.inr ⟨hf, hw⟩)
  · exact .inl hf

theorem inv_resetEvent (s : State) : (resetEvent s).Inv := { inv_reset with }

namespace State.Inv
variable (h : s.Inv)
include h

theorem withHost (events : List HostEvent) : ({ s with host := events } : State).Inv := { h with }

theorem timerPulse : (timerPulse s).Inv := { h with }

theorem setKeys (k : Word) : (setKeys k s).Inv := { h with }

theorem advanceTimers (elapsed : Nat) : (advanceTimers elapsed s).Inv :=
  { h with taccBound := Nat.mod_lt _ timerPeriod_pos }

/-- A fatal status of a running machine, after a fetch or not. -/
theorem raised (hrun : s.Running) (c : FaultCode) (w : Word) :
    ({ s with fault := c, ir := w, loadOpen := false } : State).Inv :=
  { h with
    notBoth := fun ⟨hw, _⟩ => Bool.false_ne_true (hrun.2.symm.trans hw)
    waitIr := fun hw => absurd (hrun.2.symm.trans hw) Bool.false_ne_true
    loadRunning := nofun }

theorem fetched (hrun : s.Running) (w : Word) : ({ s with ir := w, loadOpen := false } : State).Inv :=
  { h with
    waitIr := fun hw => absurd (hrun.2.symm.trans hw) Bool.false_ne_true
    loadRunning := nofun }

/-- The end of the wait: PC goes two bytes on from a fetchable address. -/
theorem waitPoll (hwait : s.Waiting) (ht : waitPoll s = .next t) : t.Inv := by
  by_cases hkeys : s.keys = 0
  · rw [waitPoll_of_no_key hkeys] at ht
    exact Host.Outcome.next.inj ht ▸ h
  · rw [waitPoll_of_key hkeys] at ht
    obtain rfl := Host.Outcome.next.inj ht
    exact { h with
      pcBound := (toNat_pc_add_two_le (h.waitPc hwait.2)).trans (by decide)
      notBoth := nofun
      waitPc := nofun
      waitIr := nofun
      loadRunning := fun hopen => absurd (hwait.2.symm.trans (h.loadRunning hopen).2) Bool.false_ne_true.symm }

theorem tick (ht : tick s = .next t) : t.Inv := by
  obtain hhalt | hwait | hrun := run_state_cases s
  · rw [tick_of_halted hhalt] at ht
    exact Host.Outcome.next.inj ht ▸ h
  · rw [tick_of_waiting hwait] at ht
    exact h.waitPoll hwait ht
  · obtain hpc | ⟨hpc, ⟨e, hd⟩ | ⟨i, hd⟩⟩ := running_fetch_cases s
    · rw [tick_of_unfetchable hrun hpc] at ht
      exact Host.Outcome.next.inj ht ▸ h.raised hrun .memoryBounds s.ir
    · rw [tick_of_decode_error hrun hpc hd] at ht
      exact Host.Outcome.next.inj ht ▸ h.raised hrun .notImplemented s.wordAtPc
    · rw [tick_of_decode_ok hrun hpc hd] at ht
      exact inv_of_exec (h.fetched hrun s.wordAtPc) hrun hpc hd rfl ht

theorem loadRom {bytes : List Byte} (ht : loadRom bytes s = .next t) : t.Inv := by
  cases hopen : s.loadOpen with
  | false =>
    rw [loadRom_of_late hopen] at ht
    cases ht
  | true =>
    rcases Nat.lt_or_ge 0xE00 bytes.length with hlen | hlen
    · rw [loadRom_of_too_large hopen hlen] at ht
      exact Host.Outcome.next.inj ht ▸ h
    · rw [loadRom_of_fits hopen hlen] at ht
      obtain rfl := Host.Outcome.next.inj ht
      exact { h with memWf := Memory.writeBytes_wf h.memWf (by omega) }

theorem deliver (ht : deliver e s = .next t) : t.Inv := by
  cases e with
  | tick => exact h.tick ht
  | timerPulse => exact Host.Outcome.next.inj ht ▸ h.timerPulse
  | advanceTimers elapsed => exact Host.Outcome.next.inj ht ▸ h.advanceTimers elapsed
  | setKeys k => exact Host.Outcome.next.inj ht ▸ h.setKeys k
  | reset => exact Host.Outcome.next.inj ht ▸ inv_resetEvent s
  | loadRom bytes => exact h.loadRom ht
  | loadRomWords words => exact h.loadRom ht

theorem step (ht : step s = .next t) : t.Inv := by
  cases hhost : s.host with
  | nil =>
    rw [step_of_host_nil hhost] at ht
    exact h.tick ht
  | cons e rest =>
    rw [step_of_host_cons hhost] at ht
    exact (h.withHost rest).deliver ht

end State.Inv

/-! ### Where a step stops -/

theorem tick_answers (hsp : s.SpLegal) : ∃ t, tick s = .next t := by
  obtain hhalt | hwait | hrun := run_state_cases s
  · exact ⟨s, tick_of_halted hhalt⟩
  · rw [tick_of_waiting hwait]
    by_cases hkeys : s.keys = 0
    · exact ⟨_, waitPoll_of_no_key hkeys⟩
    · exact ⟨_, waitPoll_of_key hkeys⟩
  · obtain ⟨t, ht, -⟩ := tick_answers_of_running hrun hsp
    exact ⟨t, ht⟩

theorem loadRom_answers_or_late (bytes : List Byte) (s : State) :
    (∃ t, loadRom bytes s = .next t) ∨ loadRom bytes s = .refused .loadAfterFirstTick ∧ s.loadOpen = false := by
  cases hopen : s.loadOpen with
  | false => exact .inr ⟨loadRom_of_late hopen, rfl⟩
  | true =>
    rcases Nat.lt_or_ge 0xE00 bytes.length with hlen | hlen
    · exact .inl ⟨_, loadRom_of_too_large hopen hlen⟩
    · exact .inl ⟨_, loadRom_of_fits hopen hlen⟩

/-- A load, of bytes or of words. -/
def IsLoad (e : HostEvent) : Prop := (∃ bytes, e = .loadRom bytes) ∨ ∃ words, e = .loadRomWords words

theorem deliver_answers_or_late (hsp : s.SpLegal) (e : HostEvent) :
    (∃ t, deliver e s = .next t) ∨
      deliver e s = .refused .loadAfterFirstTick ∧ s.loadOpen = false ∧ IsLoad e := by
  cases e with
  | tick => exact .inl (tick_answers hsp)
  | loadRom bytes =>
    exact (loadRom_answers_or_late bytes s).imp_right fun ⟨hr, hclosed⟩ => ⟨hr, hclosed, .inl ⟨bytes, rfl⟩⟩
  | loadRomWords words =>
    exact (loadRom_answers_or_late _ s).imp_right fun ⟨hr, hclosed⟩ => ⟨hr, hclosed, .inr ⟨words, rfl⟩⟩
  | _ => exact .inl ⟨_, rfl⟩

theorem step_answers_or_late (hsp : s.SpLegal) :
    (∃ t, step s = .next t) ∨
      step s = .refused .loadAfterFirstTick ∧ s.loadOpen = false ∧ ∃ e, s.host.head? = some e ∧ IsLoad e := by
  cases hhost : s.host with
  | nil =>
    rw [step_of_host_nil hhost]
    exact .inl (tick_answers hsp)
  | cons e rest =>
    rw [step_of_host_cons hhost]
    exact (deliver_answers_or_late (s := { s with host := rest }) hsp e).imp_right
      fun ⟨hr, hclosed, hload⟩ => ⟨hr, hclosed, e, rfl, hload⟩

end Machine

open Machine

/-- Settles O54, event by event; a tick by the run state and the outcome of fetch and decode. -/
theorem stepKeepsTheInvariant : Obligations.StepKeepsTheInvariant := fun _ _ hs => hs.step

/-- Settles O55. Of the invariant a legal SP is enough. -/
theorem stepStopsOnlyOnALateLoad : Obligations.StepStopsOnlyOnALateLoad := by
  intro s hs
  refine ⟨tick_answers hs.spLegal, ?_⟩
  obtain ⟨t, ht⟩ | ⟨hr, hclosed, e, hhead, hload⟩ := step_answers_or_late hs.spLegal
  · rw [ht]
    exact ⟨nofun, nofun⟩
  · rw [hr, hhead]
    refine ⟨nofun, fun r hrefused => ⟨(Host.Outcome.refused.inj hrefused).symm, hclosed, ?_⟩⟩
    exact hload.imp (fun ⟨bytes, h⟩ => ⟨bytes, congrArg some h⟩) fun ⟨words, h⟩ => ⟨words, congrArg some h⟩

end Sys2Proof
end

section
/-! SUPPORT. Where a run can go: a halted machine stays halted without a `Reset`, and a machine at a jump to itself stays
there (`60_exceptions.md` R230, `70_reset_and_hazards.md` R271). -/

namespace Sys2Proof

namespace Machine
variable {e : HostEvent} {s t : State}

/-! ### A halted machine -/

theorem State.Halted.of_sameExcept {changed : List Element} (hs : s.Halted) (h : SameExcept changed s t)
    (hfault : .fault ∉ changed) : t.Halted := by
  have hf : t.fault = s.fault := h .fault hfault
  rwa [State.Halted, hf]

/-- A load writes memory at most, and only in the load window. -/
theorem sameExcept_of_loadRom {bytes : List Byte} (h : loadRom bytes s = .next t) :
    s.loadOpen = true ∧ SameExcept [.mem] s t := by
  cases hopen : s.loadOpen with
  | false =>
    rw [loadRom_of_late hopen] at h
    cases h
  | true =>
    refine ⟨rfl, ?_⟩
    rcases Nat.lt_or_ge 0xE00 bytes.length with hlen | hlen
    · rw [loadRom_of_too_large hopen hlen] at h
      exact Host.Outcome.next.inj h ▸ .refl
    · rw [loadRom_of_fits hopen hlen] at h
      exact Host.Outcome.next.inj h ▸ sameExcept_storeBytes s _ _

/-- What an event short of `Reset` does to a halted machine: the timers and the keys move, or an open load writes. -/
theorem deliver_halted_cases (hs : s.Halted) (he : e ≠ .reset) (h : deliver e s = .next t) :
    SameExcept [.dt, .st, .tacc, .keys] s t ∨ s.loadOpen = true ∧ SameExcept [.mem] s t := by
  cases e with
  | tick =>
    obtain rfl := Host.Outcome.next.inj ((tick_of_halted hs).symm.trans h)
    exact .inl .refl
  | timerPulse =>
    obtain rfl := Host.Outcome.next.inj h
    exact .inl ((sameExcept_timerPulse s).mono (by simp))
  | advanceTimers elapsed =>
    obtain rfl := Host.Outcome.next.inj h
    exact .inl ((sameExcept_advanceTimers s elapsed).mono (by simp))
  | setKeys k =>
    obtain rfl := Host.Outcome.next.inj h
    exact .inl ((sameExcept_setKeys s k).mono (by simp))
  | reset => exact absurd rfl he
  | loadRom bytes => exact .inr (sameExcept_of_loadRom h)
  | loadRomWords words => exact .inr (sameExcept_of_loadRom h)

theorem sameExcept_withHost (s : State) (events : List HostEvent) : SameExcept [.host] s { s with host := events } :=
  sameExcept_of_takeFrom rfl

/-- The step of a halted machine whose next event is no `Reset`: the schedule moves on, and beside it what
`deliver_halted_cases` says. -/
theorem step_halted_cases (hs : s.Halted) (hnext : s.host.head? ≠ some .reset) (h : step s = .next t) :
    t.host = s.host.tail ∧
      (SameExcept [.dt, .st, .tacc, .keys, .host] s t ∨ s.loadOpen = true ∧ SameExcept [.mem, .host] s t) := by
  cases hhost : s.host with
  | nil =>
    rw [step_of_host_nil hhost, tick_of_halted hs] at h
    obtain rfl := Host.Outcome.next.inj h
    exact ⟨hhost, .inl .refl⟩
  | cons e rest =>
    rw [step_of_host_cons hhost] at h
    have he : e ≠ .reset := fun he => hnext (by rw [hhost, he]; rfl)
    have hpop := sameExcept_withHost s rest
    obtain hd | ⟨hopen, hd⟩ := deliver_halted_cases (s := { s with host := rest }) hs he h
    · exact ⟨hd .host (by decide), .inl ((hpop.mono (by simp)).trans (hd.mono (by simp)))⟩
    · exact ⟨hd .host (by decide), .inr ⟨hopen, (hpop.mono (by simp)).trans (hd.mono (by simp))⟩⟩

/-- Halted, and no `Reset` is scheduled. -/
def State.HaltedForGood (s : State) : Prop := s.Halted ∧ ∀ e ∈ s.host, e ≠ .reset

theorem State.HaltedForGood.step (hs : s.HaltedForGood) (h : step s = .next t) : t.HaltedForGood := by
  obtain ⟨hhalt, hevents⟩ := hs
  obtain ⟨hhost, hd⟩ := step_halted_cases hhalt (fun hr => hevents _ (List.mem_of_head? hr) rfl) h
  refine ⟨?_, fun e he => hevents e (List.mem_of_mem_tail (hhost ▸ he))⟩
  obtain hd | ⟨-, hd⟩ := hd
  · exact hhalt.of_sameExcept hd (by decide)
  · exact hhalt.of_sameExcept hd (by decide)

/-! ### A jump to itself -/

/-- Nothing but FAULT, WAIT, PC and memory decides whether a machine is at a jump to itself. -/
theorem State.AtSelfJump.of_sameExcept (hs : s.AtSelfJump)
    (h : SameExcept [.dt, .st, .tacc, .keys, .ir, .host, .loadOpen] s t) : t.AtSelfJump := by
  obtain ⟨⟨hfault, hwait⟩, hpc, hword⟩ := hs
  have hpceq : t.pc = s.pc := h .pc (by decide)
  have hmem : ∀ a, t.mem.read a = s.mem.read a := h .mem (by decide)
  have hwordeq : t.wordAtPc = s.wordAtPc := by
    rw [State.wordAtPc, State.wordAtPc, hpceq, hmem, hmem]
  refine ⟨⟨(h .fault (by decide)).trans hfault, (h .wait (by decide)).trans hwait⟩, ?_, ?_⟩
  · rwa [hpceq]
  · rwa [hwordeq, hpceq]

theorem tick_of_atSelfJump (h : s.AtSelfJump) : tick s = .next { s with ir := s.wordAtPc, loadOpen := false } := by
  obtain ⟨hrun, hpc, nnn, hd, htarget⟩ := h
  have hjump : zext12 nnn = s.pc := BitVec.eq_of_toNat_eq ((toNat_zext12 nnn).trans htarget.symm)
  rw [tick_of_decode_ok hrun hpc hd, exec_jp, hjump]
  rfl

/-- The events that leave a machine at a jump to itself: ticks, timer events and `SetKeys`. -/
def KeepsSelfJump (e : HostEvent) : Prop :=
  e = .tick ∨ e = .timerPulse ∨ (∃ n, e = .advanceTimers n) ∨ ∃ keys, e = .setKeys keys

theorem tick_answers_of_atSelfJump (hs : s.AtSelfJump) :
    ∃ t, tick s = .next t ∧ SameExcept [.dt, .st, .tacc, .keys, .ir, .loadOpen] s t :=
  ⟨_, tick_of_atSelfJump hs, sameExcept_of_takeFrom rfl⟩

theorem deliver_of_atSelfJump (hs : s.AtSelfJump) (he : KeepsSelfJump e) :
    ∃ t, deliver e s = .next t ∧ SameExcept [.dt, .st, .tacc, .keys, .ir, .loadOpen] s t := by
  obtain rfl | rfl | ⟨n, rfl⟩ | ⟨k, rfl⟩ := he
  · exact tick_answers_of_atSelfJump hs
  · exact ⟨_, rfl, (sameExcept_timerPulse s).mono (by simp)⟩
  · exact ⟨_, rfl, (sameExcept_advanceTimers s n).mono (by simp)⟩
  · exact ⟨_, rfl, (sameExcept_setKeys s k).mono (by simp)⟩

/-- The state is still that of the start, at its jump to itself, and only harmless events are scheduled. -/
structure State.StaysAtSelfJump (start s : State) : Prop where
  atSelfJump : s.AtSelfJump
  events : ∀ e ∈ s.host, KeepsSelfJump e
  frame : SameExcept [.dt, .st, .tacc, .keys, .ir, .host, .loadOpen] start s

theorem State.StaysAtSelfJump.step {start : State} (hs : start.StaysAtSelfJump s) :
    ∃ t, step s = .next t ∧ start.StaysAtSelfJump t := by
  have hstep : ∃ t, Machine.step s = .next t ∧ t.host = s.host.tail ∧
      SameExcept [.dt, .st, .tacc, .keys, .ir, .host, .loadOpen] s t := by
    cases hhost : s.host with
    | nil =>
      obtain ⟨t, ht, hframe⟩ := tick_answers_of_atSelfJump hs.atSelfJump
      exact ⟨t, (step_of_host_nil hhost).trans ht, (hframe .host (by decide)).trans hhost, hframe.mono (by simp)⟩
    | cons e rest =>
      have hpop := sameExcept_withHost s rest
      obtain ⟨t, ht, hframe⟩ := deliver_of_atSelfJump (hs.atSelfJump.of_sameExcept (hpop.mono (by simp)))
        (hs.events e (hhost ▸ List.mem_cons_self))
      exact ⟨t, (step_of_host_cons hhost).trans ht, hframe .host (by decide),
        (hpop.mono (by simp)).trans (hframe.mono (by simp))⟩
  obtain ⟨t, ht, hhost, hframe⟩ := hstep
  exact ⟨t, ht, hs.atSelfJump.of_sameExcept hframe, fun e he => hs.events e (List.mem_of_mem_tail (hhost ▸ he)),
    hs.frame.trans hframe⟩

end Machine

open Machine

/-- Settles O46. The invariant rules out an open load window, and with it the load. -/
theorem onlyResetLeavesHalted : Obligations.OnlyResetLeavesHalted := by
  intro s t hs hhalt hnext h
  obtain ⟨-, hframe | ⟨hopen, -⟩⟩ := step_halted_cases hhalt hnext h
  · exact ⟨hhalt.of_sameExcept hframe (by decide), hframe⟩
  · exact absurd (hs.loadRunning hopen).1 hhalt

/-- Settles O57, with `State.StaysAtSelfJump` as what every step keeps. -/
theorem selfJumpIsKeptForEver : Obligations.SelfJumpIsKeptForEver := by
  intro k s hs hevents
  obtain ⟨t, ht, hstays⟩ := run_answers (P := s.StaysAtSelfJump) (fun _ => State.StaysAtSelfJump.step) k
    ⟨hs, hevents, .refl⟩
  exact ⟨t, ht, hstays.atSelfJump, hstays.frame⟩

/-- Settles O58, with `State.HaltedForGood` as what every step keeps. -/
theorem haltedRunNeverSucceeds : Obligations.HaltedRunNeverSucceeds := by
  rintro k s hhalt hevents ⟨t, ht, hnot⟩
  exact hnot (run_keeps (P := State.HaltedForGood) (fun _ _ => State.HaltedForGood.step) ⟨hhalt, hevents⟩ ht).1

end Sys2Proof
end
